-- ==== Sys2Proof/Word.lean ====
section
/-!
DEFINITION. The data that cross the boundary of the Bit Shift Unit (BSU): 64-bit operand containers, the flags word,
the width and operation enumerations, the request of each engine as its caller presents it, the encoded line, the
outputs of a request and the reasons of the one fault (spec/10_state.md, spec/30_encoding.md).
-/

namespace Sys2Proof

/-- A 64-bit container for an operand or a result (R20). -/
abbrev Word := BitVec 64

/-- The caller's flags word: `FLAGS_BITS` = 32 bits (R5, R16; log entry 1). -/
abbrev FlagsWord := BitVec 32

/-- The closed enumeration of four operand widths (R15). -/
inductive Width
  | w8
  | w16
  | w32
  | w64
  deriving DecidableEq, Repr, Inhabited

/-- `bitsize`, the operand width N in bits (R15). -/
def Width.bits : Width → Nat
  | .w8 => 8
  | .w16 => 16
  | .w32 => 32
  | .w64 => 64

/-- The closed enumeration of the eight single-operand operations (R22), in the order of their codes. -/
inductive Operation
  | rol
  | ror
  | rcl
  | rcr
  | shl
  | shr
  | sal
  | sar
  deriving DecidableEq, Repr, Inhabited

/-- One request as a caller hands it over (R23, R24, R40), without the flags word, which the calling context owns
(R52). The width and the operation are integers, wider than their enumerations, so that a contract violation can be
presented (R47; log entry 3). The raw count has any magnitude (R23, D6; log entry 4). -/
inductive Request
  /-- A request to the Shift/Rotate Engine (R23). -/
  | evaluate (width op : Nat) (value : Word) (rawCount : Nat)
  /-- A request to the Double-Shift Engine (R24). -/
  | evaluateDouble (width : Nat) (destination source : Word) (rawCount : Nat) (shiftRight : Bool)
  deriving DecidableEq, Repr

/-- The encoding of a request as a tuple of its selector and its data fields (R41, R42, R52). -/
inductive Line
  /-- Format `EVAL`: `sel = {width[1:0], op[2:0]}` (R41). -/
  | eval (sel : BitVec 5) (value : Word) (rawCount : Nat)
  /-- Format `EVALD`: `sel = {width[1:0], shiftRight}` (R42). -/
  | evald (sel : BitVec 3) (destination source : Word) (rawCount : Nat)
  deriving DecidableEq, Repr

/-- What one request that does not fault produces (R23, R24). -/
structure Outputs where
  /-- The `result` port: bits 63..N are zero (R65). -/
  result : Word
  /-- The `flags_out` port. -/
  flagsOut : FlagsWord
  deriving DecidableEq, Repr

/-- The two named reasons of a contract violation (R141). -/
inductive ViolationReason
  /-- The width is not one of the four. -/
  | badWidth
  /-- The operation is not one of the eight. -/
  | badOperation
  deriving DecidableEq, Repr

end Sys2Proof
end

