-- ==== Sys2Proof/Config.lean ====
section
/-!
DEFINITION. The parameters the spec leaves open (R5, R68, R101, R123; D9, D10, D11). They are fixed for the lifetime
of a BSU (R69) and no proof can see their values: `Config.chosen` is uninterpreted.
-/

namespace Sys2Proof

/-- The two admissible formulas of OF for ROR at effective count 1 (R101, D11). -/
inductive RorOf1
  /-- The source's formula, `r[N-1] ^ cf`. -/
  | doc
  /-- The sign-change formula, `v[N-1] ^ r[N-1]`. -/
  | signChange
  deriving DecidableEq, Repr, Inhabited

/-- The open parameters, as total functions of the request's inputs. Operands are given masked, in their 64-bit
container; counts are effective counts. -/
structure Config where
  /-- `OF_MULTI_SINGLE(width, op, v, c, flags_in)`: OF of an `Evaluate` request at `c >= 2` (R68; log entry 8).
  It is read through `Machine.ofSingle`, which gives SAL the value of SHL (R81; log entry 20). -/
  ofMultiSingle : Width → Operation → Word → Nat → FlagsWord → Bool
  /-- `OF_MULTI_DOUBLE(width, shiftRight, d, s, c, flags_in)`: OF of an `EvaluateDouble` request at `c >= 2`
  (R68; log entry 9). -/
  ofMultiDouble : Width → Bool → Word → Word → Nat → FlagsWord → Bool
  /-- `ROR_OF1` (R101; log entry 10). -/
  rorOf1 : RorOf1
  /-- `DSHIFT_OVERCOUNT(N, shiftRight, d, s, c)`: result and CF of SHLD and SHRD at `c > N` (R123; log entry 11). -/
  dshiftOvercount : Width → Bool → Word → Word → Nat → Word × Bool
  deriving Inhabited

/-- The parameters of the BSU that the machine models. A free value: the spec says that a model quantifies over
them and never fixes them (R68, R101, R123, 93_implementation_defined.md I1, I3, I4; log entries 8 to 11). -/
opaque Config.chosen : Config

end Sys2Proof
end

