-- ==== Sys2Proof/Syntax.lean ====
section
/-!
DEFINITION. The ten operations of the BSU (R46), one constructor per row of spec/opcode_table.json, with the data
fields of its request format (R41, R42).
-/

namespace Sys2Proof

/-- One request with clean enumeration values (R49). -/
inductive Instr
  /-- ROL (R100). -/
  | rol (width : Width) (value : Word) (rawCount : Nat)
  /-- ROR (R101). -/
  | ror (width : Width) (value : Word) (rawCount : Nat)
  /-- RCL (R111). -/
  | rcl (width : Width) (value : Word) (rawCount : Nat)
  /-- RCR (R112). -/
  | rcr (width : Width) (value : Word) (rawCount : Nat)
  /-- SHL (R80). -/
  | shl (width : Width) (value : Word) (rawCount : Nat)
  /-- SHR (R82). -/
  | shr (width : Width) (value : Word) (rawCount : Nat)
  /-- SAL (R81). -/
  | sal (width : Width) (value : Word) (rawCount : Nat)
  /-- SAR (R83). -/
  | sar (width : Width) (value : Word) (rawCount : Nat)
  /-- SHLD (R121, R123). -/
  | shld (width : Width) (destination source : Word) (rawCount : Nat)
  /-- SHRD (R122, R123). -/
  | shrd (width : Width) (destination source : Word) (rawCount : Nat)
  deriving DecidableEq, Repr

end Sys2Proof
end

