-- ==== Sys2Proof/WellFormed.lean ====
section
/-!
DEFINITION. The duty of the caller about operands: each is masked to the width (R64, R162 (b)). The machine is total
on operands that break it (R64; log entry 13), so well-formedness is a premise a claim may use, never a condition of
running.
-/

namespace Sys2Proof

/-- The operand lies inside `width.valueMask` (R20, R162 (b)). -/
def Width.fits (w : Width) (x : Word) : Bool := decide (x.toNat < 2 ^ w.bits)

/-- The caller kept its masking duty for every operand of the request (R162 (b)). -/
def Instr.wf : Instr → Bool
  | .rol w x _ => w.fits x
  | .ror w x _ => w.fits x
  | .rcl w x _ => w.fits x
  | .rcr w x _ => w.fits x
  | .shl w x _ => w.fits x
  | .shr w x _ => w.fits x
  | .sal w x _ => w.fits x
  | .sar w x _ => w.fits x
  | .shld w d s _ => w.fits d && w.fits s
  | .shrd w d s _ => w.fits d && w.fits s

end Sys2Proof
end

