-- ==== Sys2Proof/Decode.lean ====
section
/-!
DEFINITION. The enumeration check that opens every evaluation (R60 step 1, R61, R140, R146), the selector packing of
the two request formats (R41, R42, R44, R45, R52), and the encoder.
-/

namespace Sys2Proof

/-- `WIDTH_CODE` (R5, R15). -/
def Width.code : Width → BitVec 2
  | .w8 => 0
  | .w16 => 1
  | .w32 => 2
  | .w64 => 3

/-- The width of a code, if it is one of the four (R15, R47). -/
def Width.ofCode : Nat → Option Width
  | 0 => some .w8
  | 1 => some .w16
  | 2 => some .w32
  | 3 => some .w64
  | _ => none

/-- `OP_CODE` (R5, R22, R44). -/
def Operation.code : Operation → BitVec 3
  | .rol => 0
  | .ror => 1
  | .rcl => 2
  | .rcr => 3
  | .shl => 4
  | .shr => 5
  | .sal => 6
  | .sar => 7

/-- The operation of a code, if it is one of the eight (R22, R47). -/
def Operation.ofCode : Nat → Option Operation
  | 0 => some .rol
  | 1 => some .ror
  | 2 => some .rcl
  | 3 => some .rcr
  | 4 => some .shl
  | 5 => some .shr
  | 6 => some .sal
  | 7 => some .sar
  | _ => none

/-- The `Evaluate` request of an operation, its enumerations already checked (R44). -/
def singleInstr (op : Operation) (w : Width) (value : Word) (rawCount : Nat) : Instr :=
  match op with
  | .rol => .rol w value rawCount
  | .ror => .ror w value rawCount
  | .rcl => .rcl w value rawCount
  | .rcr => .rcr w value rawCount
  | .shl => .shl w value rawCount
  | .shr => .shr w value rawCount
  | .sal => .sal w value rawCount
  | .sar => .sar w value rawCount

/-- The `EvaluateDouble` request of a direction (R45). -/
def doubleInstr (shiftRight : Bool) (w : Width) (destination source : Word) (rawCount : Nat) : Instr :=
  match shiftRight with
  | false => .shld w destination source rawCount
  | true => .shrd w destination source rawCount

/-- The enumeration check: the clean request, or the reason of the contract violation. The width is examined first
(R61, R140, R146); the count and the operands are not looked at (R143). -/
def decode : Request → Except ViolationReason Instr
  | .evaluate width op value rawCount =>
    match Width.ofCode width with
    | none => .error .badWidth
    | some w =>
      match Operation.ofCode op with
      | none => .error .badOperation
      | some o => .ok (singleInstr o w value rawCount)
  | .evaluateDouble width destination source rawCount shiftRight =>
    match Width.ofCode width with
    | none => .error .badWidth
    | some w => .ok (doubleInstr shiftRight w destination source rawCount)

/-- The request an encoded line presents: the selector's fields are `width = sel[4:3]`, `op = sel[2:0]` (R41), and
`width = sel[2:1]`, `shiftRight = sel[0]` (R42). -/
def Line.request : Line → Request
  | .eval sel value rawCount =>
    .evaluate (sel.extractLsb' 3 2).toNat (sel.extractLsb' 0 3).toNat value rawCount
  | .evald sel destination source rawCount =>
    .evaluateDouble (sel.extractLsb' 1 2).toNat destination source rawCount (sel.getLsbD 0)

/-- Decoding an encoded line (R52). -/
def decodeLine (l : Line) : Except ViolationReason Instr := decode l.request

/-- `sel = (WIDTH_CODE(N) << 3) | OP_CODE(OP)` (R52). -/
def evalSel (w : Width) (op : Operation) : BitVec 5 := w.code ++ op.code

/-- `sel = (WIDTH_CODE(N) << 1) | shiftRight` (R52). -/
def evaldSel (w : Width) (shiftRight : Bool) : BitVec 3 := w.code ++ BitVec.ofBool shiftRight

/-- The encoding of a request as a line (R52). -/
def encode : Instr → Line
  | .rol w value rawCount => .eval (evalSel w .rol) value rawCount
  | .ror w value rawCount => .eval (evalSel w .ror) value rawCount
  | .rcl w value rawCount => .eval (evalSel w .rcl) value rawCount
  | .rcr w value rawCount => .eval (evalSel w .rcr) value rawCount
  | .shl w value rawCount => .eval (evalSel w .shl) value rawCount
  | .shr w value rawCount => .eval (evalSel w .shr) value rawCount
  | .sal w value rawCount => .eval (evalSel w .sal) value rawCount
  | .sar w value rawCount => .eval (evalSel w .sar) value rawCount
  | .shld w destination source rawCount => .evald (evaldSel w false) destination source rawCount
  | .shrd w destination source rawCount => .evald (evaldSel w true) destination source rawCount

/-- The request whose selector is the number `w`, its data fields zero, as spec/opcode_table.json numbers selectors.
The two formats have selectors of 5 and 3 bits (R41, R42) whose numbers overlap, and a number alone does not say
which engine it is for: fewer than 5 bits are read as an `EVALD` selector, 5 or more as an `EVAL` selector (log
entry 18). Bits above the selector reach the width code, which is then out of its enumeration. -/
def tableRequest (nbits w : Nat) : Request :=
  if nbits < 5 then .evaluateDouble (w / 2) 0 0 0 (w % 2 == 1)
  else .evaluate (w / 8) (w % 8) 0 0

/-- What the decoder reads from a selector numbered as the opcode table numbers it. -/
def decodeTableWord (nbits w : Nat) : Option Instr :=
  match decode (tableRequest nbits w) with
  | .ok i => some i
  | .error _ => none

end Sys2Proof
end

