-- ==== Sys2Proof/Machine/State.lean ====
section
/-!
DEFINITION. The state of the machine. The BSU retains none (R10, R14, R26); what the spec gives it at its boundary is
here: the requests presented and not yet evaluated, and for each calling context the flags word it owns and the
result port as last driven for it.
-/

namespace Sys2Proof.Machine

/-- What a calling context owns (R16, R35, R36). -/
structure Context where
  /-- The caller's flags word: `flags_in` of its next request, `flags_out` of its last (R16, R52). -/
  flags : FlagsWord
  /-- The `result` port as driven by its last request (R23, R24). -/
  result : Word
  deriving DecidableEq, Repr

/-- A context that has issued nothing: the spec gives the caller's flags word no initial value (R26, R163), so these
zeros are the model's (log entry 6, DESIGN CHOICE, unsafe). -/
def Context.reset : Context := { flags := 0, result := 0 }

/-- A request together with the calling context that issues it and owns the flags word it names (R36). -/
structure Issue where
  context : Nat
  request : Request
  deriving DecidableEq, Repr

/-- The machine. -/
structure State where
  /-- The rounds still to come, the next first. A round holds the requests in evaluation at the same time (R150);
  a context's own requests stand in the order it issues them (R51, R52). -/
  rounds : List (List Issue)
  /-- The context whose request is being evaluated: it owns the flags word for the duration of the call (R16, R36). -/
  active : Nat
  /-- The calling contexts by number, numbers rising, none equal to `Context.reset`, as which an unlisted context
  reads. -/
  contexts : List (Nat × Context)
  deriving DecidableEq, Repr

/-- Before the first request: nothing presented, no context has issued anything (R26, R160, R161; log entry 6). -/
def State.reset : State := { rounds := [], active := 0, contexts := [] }

/-- The one fault (R140, R144). -/
inductive Fault
  /-- Raised by the enumeration check of a request whose width or operation is outside its enumeration (R61, R140).
  Safe: the spec names this fault, and it is terminal (R148). -/
  | contractViolation (reason : ViolationReason)
  deriving DecidableEq, Repr

/-- What the model gives no meaning. -/
inductive Refusal
  /-- An instruction without a meaning, by its mnemonic. No instruction of this model raises it. Safe. -/
  | notModelled (mnemonic : String)
  /-- Raised by a round in which two requests name the same flags word: outside the contract, no outcome given, and
  the spec has a model refuse it (R36, R168, 93_implementation_defined.md I7; log entry 16). Safe. -/
  | flagsWordShared
  deriving DecidableEq, Repr

end Sys2Proof.Machine
end

