-- ==== Sys2Proof/Machine/Ops.lean ====
section
/-!
DEFINITION. The named operations over the state: the store of calling contexts in its canonical form, sampling
`flags_in` and delivering the outputs of a request, taking the next round, and raising the one fault.
-/

namespace Sys2Proof.Machine

/-- The context numbered `k`; an unlisted one reads as `Context.reset`. -/
def lookupContext : List (Nat × Context) → Nat → Context
  | [], _ => Context.reset
  | (j, c) :: rest, k =>
    if k < j then Context.reset else if k = j then c else lookupContext rest k

/-- The store with context `k` set to `c`, keeping the canonical form: numbers rising, nothing listed that reads as
an unlisted context does. -/
def storeContext : List (Nat × Context) → Nat → Context → List (Nat × Context)
  | [], k, c => if c = Context.reset then [] else [(k, c)]
  | (j, d) :: rest, k, c =>
    if k < j then (if c = Context.reset then (j, d) :: rest else (k, c) :: (j, d) :: rest)
    else if k = j then
      (if c = Context.reset then rest.dropWhile (fun e => decide (e.1 ≤ k)) else (k, c) :: rest)
    else (j, d) :: storeContext rest k c

/-- The canonical form of the store of contexts. -/
abbrev contextsCanonical (l : List (Nat × Context)) : Prop :=
  l.Pairwise (fun a b => a.1 < b.1) ∧ ∀ e ∈ l, e.2 ≠ Context.reset

/-- What context `k` owns. -/
def State.context (s : State) (k : Nat) : Context := lookupContext s.contexts k

/-- The flags word of context `k` (R16). -/
def State.flagsOf (s : State) (k : Nat) : FlagsWord := (s.context k).flags

/-- The result last delivered to context `k` (R23, R24). -/
def State.resultOf (s : State) (k : Nat) : Word := (s.context k).result

/-- `flags_in` of the request in evaluation: the flags word of its calling context, sampled once (R34, R164). -/
def State.flagsIn (s : State) : FlagsWord := s.flagsOf s.active

/-- The end of a request without a fault: its context's flags word is replaced by `flags_out` and its `result` is
driven, together (R16, R34, R162 (g)). -/
def State.deliver (s : State) (o : Outputs) : State :=
  { s with contexts := storeContext s.contexts s.active { flags := o.flagsOut, result := o.result } }

/-- A request of context `k` enters evaluation. -/
def State.activate (s : State) (k : Nat) : State := { s with active := k }

/-- The next round, taken off the rounds to come; `none` when no request is presented. -/
def State.nextRound (s : State) : Option (List Issue × State) :=
  match s.rounds with
  | [] => none
  | round :: rest => some (round, { s with rounds := rest })

/-- A round of one request, of the context that is active, placed before every other. -/
def State.present (s : State) (r : Request) : State :=
  { s with rounds := [{ context := s.active, request := r }] :: s.rounds }

/-- Two requests of the round name the same flags word (R36, R168). -/
def sharesFlagsWord (round : List Issue) : Bool := !decide (round.map Issue.context).Nodup

/-- Raising `ContractViolation`: no outputs, nothing saved, no control transfer, terminal (R142, R147, R148). This is
the whole of taking an exception on this hardware, and there is no return from one (R148). -/
def raiseContractViolation (reason : ViolationReason) : Host.Outcome State Fault Refusal :=
  .fault (.contractViolation reason)

end Sys2Proof.Machine
end

