-- ==== Sys2Proof/Machine/Operands.lean ====
section
/-!
DEFINITION. The width model's masks (R5, R15), the effective count (R62), operands and results (R64, R65), and the
evaluation skeleton every operation shares (R60).
-/

namespace Sys2Proof.Machine

/-- `valueMask(N) = (1 << N) - 1` (R7, R15). -/
def valueMask (w : Width) : Nat := (1 <<< w.bits) - 1

/-- `countMask(N)` (R7, R15). -/
def countMask (w : Width) : Nat := if w.bits = 64 then 0x3F else 0x1F

/-- The effective count `c = rawCount & countMask(N)`, the only treatment of the raw count (R62). -/
def effectiveCount (w : Width) (rawCount : Nat) : Nat := rawCount &&& countMask w

/-- `x & M` as an N-bit pattern: bits of the container above bit N-1 are dropped (R64). -/
def operand (w : Width) (x : Word) : BitVec w.bits := x.setWidth w.bits

/-- An N-bit pattern in its 64-bit container, bits 63..N zero (R20, R65). -/
def container {n : Nat} (r : BitVec n) : Word := r.setWidth 64

/-- Steps 2 to 6 of an evaluation, for both engines (R60): mask the count and the first operand, return both operand
and flags unchanged at effective count zero (R63), else apply the operation's rule to the masked operand and the
count, and return its result in a container (R65). -/
def evaluateWith (w : Width) (x : Word) (rawCount : Nat) (flagsIn : FlagsWord)
    (rule : BitVec w.bits → Nat → BitVec w.bits × FlagsWord) : Outputs :=
  if effectiveCount w rawCount = 0 then { result := container (operand w x), flagsOut := flagsIn }
  else
    { result := container (rule (operand w x) (effectiveCount w rawCount)).1
      flagsOut := (rule (operand w x) (effectiveCount w rawCount)).2 }

end Sys2Proof.Machine
end

