-- ==== Sys2Proof/Machine/Flags.lean ====
section
/-!
DEFINITION. The flags model: the fields of the flags word (R16), `SetSZP` (R66), the construction of `flags_out`
(R67) and the policy for OF (R68).
-/

namespace Sys2Proof.Machine

/-- The six fields the BSU knows (R16). -/
inductive Flag
  | cf
  | pf
  | af
  | zf
  | sf
  | of
  deriving DecidableEq, Repr

/-- The bit of the flags word a field sits at (R5, R16; log entry 1). -/
def flagPos : Flag → Nat
  | .cf => 0
  | .pf => 2
  | .af => 4
  | .zf => 6
  | .sf => 7
  | .of => 11

/-- `flags.X` (R6). -/
def getFlag (f : FlagsWord) (x : Flag) : Bool := f.getLsbD (flagPos x)

/-- `flags.X <- b`: writes one field and no other bit (R6). -/
def setFlag (f : FlagsWord) (x : Flag) (b : Bool) : FlagsWord :=
  if b then f ||| (1#32 <<< flagPos x) else f &&& ~~~(1#32 <<< flagPos x)

/-- `parity8(v)`: true when `v[7:0]` has an even number of 1 bits (R6, R17). -/
def parity8 {n : Nat} (v : BitVec n) : Bool := (List.range 8).countP (fun i => v.getLsbD i) % 2 == 0

/-- `SetSZP(flags, r, N)` (R7, R66). -/
def setSZP {n : Nat} (f : FlagsWord) (r : BitVec n) : FlagsWord :=
  setFlag (setFlag (setFlag f .zf (r == 0#n)) .sf r.msb) .pf (parity8 r)

/-- The flags an operation writes that touches CF and OF only (R18 (e), R67). -/
def rotateFlags (flagsIn : FlagsWord) (cf of : Bool) : FlagsWord := setFlag (setFlag flagsIn .cf cf) .of of

/-- The flags an operation writes that defines the full flag set (R18 (e), R67). -/
def shiftFlags {n : Nat} (flagsIn : FlagsWord) (cf of : Bool) (r : BitVec n) : FlagsWord :=
  setSZP (rotateFlags flagsIn cf of) r

/-- SAL stands for SHL (R81); every other operation for itself. -/
def canonicalOperation : Operation → Operation
  | .sal => .shl
  | op => op

/-- `OF_MULTI_SINGLE(width, op, v, c, flags_in)` with the constraint that it is equal for SAL and SHL
(R68, R81, D10; log entries 8 and 20). -/
def ofSingle (p : Config) (w : Width) (op : Operation) (v : BitVec w.bits) (c : Nat) (flagsIn : FlagsWord) : Bool :=
  p.ofMultiSingle w (canonicalOperation op) (container v) c flagsIn

/-- `OF_MULTI_DOUBLE(width, shiftRight, d, s, c, flags_in)` (R68, D10; log entry 9). -/
def ofDouble (p : Config) (w : Width) (shiftRight : Bool) (d s : BitVec w.bits) (c : Nat) (flagsIn : FlagsWord) :
    Bool :=
  p.ofMultiDouble w shiftRight (container d) (container s) c flagsIn

end Sys2Proof.Machine
end

