-- ==== Sys2Proof/Machine/CarryRotates.lean ====
section
/-!
DEFINITION. RCL and RCR (spec/43_carry_rotates.md, R110 to R114). Each rule starts at step 5 of R60, at an effective
count of at least 1, with the incoming CF read from `flags_in` before any mutation (R67, R164).
-/

namespace Sys2Proof.Machine

/-- The ring `{cf, v}` of N+1 bits, as its carry position and its value bits (R110). -/
abbrev Ring (n : Nat) := Bool × BitVec n

/-- One step of the ring to the left: `(cf, v) <- (v[N-1], ((v << 1) & M) | cf)` (R110). -/
def ringStepLeft {n : Nat} (ring : Ring n) : Ring n :=
  (ring.2.msb, (ring.2 <<< 1) ||| (BitVec.ofBool ring.1).setWidth n)

/-- One step of the ring to the right: `(cf, v) <- (v[0], (v >> 1) | (cf << (N-1)))` (R110). -/
def ringStepRight {n : Nat} (ring : Ring n) : Ring n :=
  (ring.2.getLsbD 0, (ring.2 >>> 1) ||| ((BitVec.ofBool ring.1).setWidth n <<< (n - 1)))

/-- The ring after `c` places to the left, in the closed form of R111. -/
def ringLeft {n : Nat} (ring : Ring n) (c : Nat) : Ring n :=
  let k := c % (n + 1)
  if k = 0 then ring
  else
    (ring.2.getLsbD (n - k),
      (ring.2 <<< k) ||| ((BitVec.ofBool ring.1).setWidth n <<< (k - 1)) ||| (ring.2 >>> (n + 1 - k)))

/-- The ring after `c` places to the right, in the closed form of R112. -/
def ringRight {n : Nat} (ring : Ring n) (c : Nat) : Ring n :=
  let k := c % (n + 1)
  if k = 0 then ring
  else
    (ring.2.getLsbD (k - 1),
      (ring.2 >>> k) ||| ((BitVec.ofBool ring.1).setWidth n <<< (n - k)) ||| (ring.2 <<< (n + 1 - k)))

/-- The rule of RCL (R111). -/
def carryLeftRule (p : Config) (w : Width) (flagsIn : FlagsWord) (v : BitVec w.bits) (c : Nat) :
    BitVec w.bits × FlagsWord :=
  let ring := ringLeft (getFlag flagsIn .cf, v) c
  let of := if c = 1 then ring.2.msb ^^ ring.1 else ofSingle p w .rcl v c flagsIn
  (ring.2, rotateFlags flagsIn ring.1 of)

/-- The rule of RCR (R112). -/
def carryRightRule (p : Config) (w : Width) (flagsIn : FlagsWord) (v : BitVec w.bits) (c : Nat) :
    BitVec w.bits × FlagsWord :=
  let ring := ringRight (getFlag flagsIn .cf, v) c
  let of := if c = 1 then v.msb ^^ ring.2.msb else ofSingle p w .rcr v c flagsIn
  (ring.2, rotateFlags flagsIn ring.1 of)

/-- The outputs of a RCL request (R60, R111). -/
def rclOutputs (p : Config) (w : Width) (value : Word) (rawCount : Nat) (flagsIn : FlagsWord) : Outputs :=
  evaluateWith w value rawCount flagsIn (carryLeftRule p w flagsIn)

/-- The outputs of a RCR request (R60, R112). -/
def rcrOutputs (p : Config) (w : Width) (value : Word) (rawCount : Nat) (flagsIn : FlagsWord) : Outputs :=
  evaluateWith w value rawCount flagsIn (carryRightRule p w flagsIn)

/-- RCL (R111). -/
def execRcl (w : Width) (value : Word) (rawCount : Nat) (s : State) : Host.Outcome State Fault Refusal :=
  .next (s.deliver (rclOutputs Config.chosen w value rawCount s.flagsIn))

/-- RCR (R112). -/
def execRcr (w : Width) (value : Word) (rawCount : Nat) (s : State) : Host.Outcome State Fault Refusal :=
  .next (s.deliver (rcrOutputs Config.chosen w value rawCount s.flagsIn))

end Sys2Proof.Machine
end

