-- ==== Sys2Proof/Machine/DoubleShifts.lean ====
section
/-!
DEFINITION. SHLD and SHRD (spec/44_double_shift.md, R120 to R128). Each rule starts at step 5 of R60, at an effective
count of at least 1. `d` is the masked destination and `s` the masked source, which is only read (R124).
-/

namespace Sys2Proof.Machine

/-- The destination half of the pair `{d, s}` shifted left by `c`: its high N bits (R121, R123, C4). -/
def pairLeft {n : Nat} (d s : BitVec n) (c : Nat) : BitVec n := ((d ++ s) <<< c).extractLsb' n n

/-- The destination half of the pair `{s, d}` shifted right by `c`: its low N bits (R122, R123, C4). -/
def pairRight {n : Nat} (d s : BitVec n) (c : Nat) : BitVec n := ((s ++ d) >>> c).extractLsb' 0 n

/-- The default `zero_fill` of `DSHIFT_OVERCOUNT`: the formulas of R121 and R122 applied as written to the pair, zeros
entering its vacated end, CF the last bit to leave the destination half (R123, C7). The machine does not take this
default: it is one value the parameter may have (log entry 11). -/
def zeroFill (w : Width) (shiftRight : Bool) (d s : Word) (c : Nat) : Word × Bool :=
  let dn := operand w d
  let sn := operand w s
  match shiftRight with
  | false =>
    (container (pairLeft dn sn c), if c ≤ 2 * w.bits then (dn ++ sn).getLsbD (2 * w.bits - c) else false)
  | true =>
    (container (pairRight dn sn c), if c ≤ 2 * w.bits then (sn ++ dn).getLsbD (c - 1) else false)

/-- Result and CF of SHLD (R121 for `c <= N`, R123 above; log entry 11). -/
def shldPair (p : Config) (w : Width) (d s : BitVec w.bits) (c : Nat) : BitVec w.bits × Bool :=
  if c ≤ w.bits then (pairLeft d s c, d.getLsbD (w.bits - c))
  else
    let o := p.dshiftOvercount w false (container d) (container s) c
    (operand w o.1, o.2)

/-- Result and CF of SHRD (R122 for `c <= N`, R123 above; log entry 11). -/
def shrdPair (p : Config) (w : Width) (d s : BitVec w.bits) (c : Nat) : BitVec w.bits × Bool :=
  if c ≤ w.bits then (pairRight d s c, d.getLsbD (c - 1))
  else
    let o := p.dshiftOvercount w true (container d) (container s) c
    (operand w o.1, o.2)

/-- The flags of a double shift with result `r` and carry `cf`: OF is the sign change of the destination at count 1
(R126) and open above (R68). -/
def doubleShiftFlags (p : Config) (w : Width) (shiftRight : Bool) (flagsIn : FlagsWord) (d s r : BitVec w.bits)
    (cf : Bool) (c : Nat) : FlagsWord :=
  shiftFlags flagsIn cf (if c = 1 then d.msb ^^ r.msb else ofDouble p w shiftRight d s c flagsIn) r

/-- The rule of SHLD (R121, R123). -/
def doubleLeftRule (p : Config) (w : Width) (s : BitVec w.bits) (flagsIn : FlagsWord) (d : BitVec w.bits) (c : Nat) :
    BitVec w.bits × FlagsWord :=
  let o := shldPair p w d s c
  (o.1, doubleShiftFlags p w false flagsIn d s o.1 o.2 c)

/-- The rule of SHRD (R122, R123). -/
def doubleRightRule (p : Config) (w : Width) (s : BitVec w.bits) (flagsIn : FlagsWord) (d : BitVec w.bits) (c : Nat) :
    BitVec w.bits × FlagsWord :=
  let o := shrdPair p w d s c
  (o.1, doubleShiftFlags p w true flagsIn d s o.1 o.2 c)

/-- The outputs of a SHLD request (R60, R121, R123). -/
def shldOutputs (p : Config) (w : Width) (destination source : Word) (rawCount : Nat) (flagsIn : FlagsWord) :
    Outputs :=
  evaluateWith w destination rawCount flagsIn (doubleLeftRule p w (operand w source) flagsIn)

/-- The outputs of a SHRD request (R60, R122, R123). -/
def shrdOutputs (p : Config) (w : Width) (destination source : Word) (rawCount : Nat) (flagsIn : FlagsWord) :
    Outputs :=
  evaluateWith w destination rawCount flagsIn (doubleRightRule p w (operand w source) flagsIn)

/-- SHLD (R121, R123). -/
def execShld (w : Width) (destination source : Word) (rawCount : Nat) (s : State) :
    Host.Outcome State Fault Refusal :=
  .next (s.deliver (shldOutputs Config.chosen w destination source rawCount s.flagsIn))

/-- SHRD (R122, R123). -/
def execShrd (w : Width) (destination source : Word) (rawCount : Nat) (s : State) :
    Host.Outcome State Fault Refusal :=
  .next (s.deliver (shrdOutputs Config.chosen w destination source rawCount s.flagsIn))

end Sys2Proof.Machine
end

