-- ==== Sys2Proof/Machine/Rotates.lean ====
section
/-!
DEFINITION. ROL and ROR (spec/42_rotates.md, R100 to R103). Each rule starts at step 5 of R60, at an effective count
of at least 1; the flags are written at every such count, also when it is a multiple of N (R100).
-/

namespace Sys2Proof.Machine

/-- `v` rotated left by `c mod N` (R100). -/
def rotateLeftBits {n : Nat} (v : BitVec n) (c : Nat) : BitVec n :=
  let k := c % n
  if k = 0 then v else (v <<< k) ||| (v >>> (n - k))

/-- `v` rotated right by `c mod N` (R101). -/
def rotateRightBits {n : Nat} (v : BitVec n) (c : Nat) : BitVec n :=
  let k := c % n
  if k = 0 then v else (v >>> k) ||| (v <<< (n - k))

/-- OF of ROR at effective count 1 under each value of `ROR_OF1` (R101, C6; log entry 10). -/
def rorOverflow {n : Nat} (mode : RorOf1) (v r : BitVec n) (cf : Bool) : Bool :=
  match mode with
  | .doc => r.msb ^^ cf
  | .signChange => v.msb ^^ r.msb

/-- The rule of ROL (R100). -/
def rotateLeftRule (p : Config) (w : Width) (flagsIn : FlagsWord) (v : BitVec w.bits) (c : Nat) :
    BitVec w.bits × FlagsWord :=
  let r := rotateLeftBits v c
  let cf := r.getLsbD 0
  let of := if c = 1 then r.msb ^^ cf else ofSingle p w .rol v c flagsIn
  (r, rotateFlags flagsIn cf of)

/-- The rule of ROR (R101). -/
def rotateRightRule (p : Config) (w : Width) (flagsIn : FlagsWord) (v : BitVec w.bits) (c : Nat) :
    BitVec w.bits × FlagsWord :=
  let r := rotateRightBits v c
  let cf := r.msb
  let of := if c = 1 then rorOverflow p.rorOf1 v r cf else ofSingle p w .ror v c flagsIn
  (r, rotateFlags flagsIn cf of)

/-- The outputs of a ROL request (R60, R100). -/
def rolOutputs (p : Config) (w : Width) (value : Word) (rawCount : Nat) (flagsIn : FlagsWord) : Outputs :=
  evaluateWith w value rawCount flagsIn (rotateLeftRule p w flagsIn)

/-- The outputs of a ROR request (R60, R101). -/
def rorOutputs (p : Config) (w : Width) (value : Word) (rawCount : Nat) (flagsIn : FlagsWord) : Outputs :=
  evaluateWith w value rawCount flagsIn (rotateRightRule p w flagsIn)

/-- ROL (R100). -/
def execRol (w : Width) (value : Word) (rawCount : Nat) (s : State) : Host.Outcome State Fault Refusal :=
  .next (s.deliver (rolOutputs Config.chosen w value rawCount s.flagsIn))

/-- ROR (R101). -/
def execRor (w : Width) (value : Word) (rawCount : Nat) (s : State) : Host.Outcome State Fault Refusal :=
  .next (s.deliver (rorOutputs Config.chosen w value rawCount s.flagsIn))

end Sys2Proof.Machine
end

