-- ==== Sys2Proof/Machine/Shifts.lean ====
section
/-!
DEFINITION. SHL, SAL, SHR, SAR (spec/41_shifts.md, R80 to R85). Each rule starts at step 5 of R60, at an effective
count of at least 1.
-/

namespace Sys2Proof.Machine

/-- CF of a left shift: `v[N - c]` while `c <= N`, else 0 (R80, R84; log entry 12). -/
def leftCarry {n : Nat} (v : BitVec n) (c : Nat) : Bool := if c ≤ n then v.getLsbD (n - c) else false

/-- CF of a logical right shift: `v[c - 1]` while `c <= N`, else 0 (R82, R84; log entry 12). -/
def rightCarry {n : Nat} (v : BitVec n) (c : Nat) : Bool := if c ≤ n then v.getLsbD (c - 1) else false

/-- CF of an arithmetic right shift: `v[min(c - 1, N - 1)]` (R83, R84; log entry 12). -/
def arithmeticCarry {n : Nat} (v : BitVec n) (c : Nat) : Bool := v.getLsbD (min (c - 1) (n - 1))

/-- The rule of SHL, and of SAL under its own name (R80, R81). -/
def leftShiftRule (p : Config) (op : Operation) (w : Width) (flagsIn : FlagsWord) (v : BitVec w.bits) (c : Nat) :
    BitVec w.bits × FlagsWord :=
  let r := v <<< c
  let cf := leftCarry v c
  let of := if c = 1 then r.msb ^^ cf else ofSingle p w op v c flagsIn
  (r, shiftFlags flagsIn cf of r)

/-- The rule of SHR (R82). -/
def rightShiftRule (p : Config) (w : Width) (flagsIn : FlagsWord) (v : BitVec w.bits) (c : Nat) :
    BitVec w.bits × FlagsWord :=
  let r := v >>> c
  let cf := rightCarry v c
  let of := if c = 1 then v.msb else ofSingle p w .shr v c flagsIn
  (r, shiftFlags flagsIn cf of r)

/-- The rule of SAR (R83). -/
def arithmeticShiftRule (p : Config) (w : Width) (flagsIn : FlagsWord) (v : BitVec w.bits) (c : Nat) :
    BitVec w.bits × FlagsWord :=
  let r := v.sshiftRight c
  let cf := arithmeticCarry v c
  let of := if c = 1 then false else ofSingle p w .sar v c flagsIn
  (r, shiftFlags flagsIn cf of r)

/-- The outputs of a SHL request (R60, R80). -/
def shlOutputs (p : Config) (w : Width) (value : Word) (rawCount : Nat) (flagsIn : FlagsWord) : Outputs :=
  evaluateWith w value rawCount flagsIn (leftShiftRule p .shl w flagsIn)

/-- The outputs of a SAL request (R60, R81). -/
def salOutputs (p : Config) (w : Width) (value : Word) (rawCount : Nat) (flagsIn : FlagsWord) : Outputs :=
  evaluateWith w value rawCount flagsIn (leftShiftRule p .sal w flagsIn)

/-- The outputs of a SHR request (R60, R82). -/
def shrOutputs (p : Config) (w : Width) (value : Word) (rawCount : Nat) (flagsIn : FlagsWord) : Outputs :=
  evaluateWith w value rawCount flagsIn (rightShiftRule p w flagsIn)

/-- The outputs of a SAR request (R60, R83). -/
def sarOutputs (p : Config) (w : Width) (value : Word) (rawCount : Nat) (flagsIn : FlagsWord) : Outputs :=
  evaluateWith w value rawCount flagsIn (arithmeticShiftRule p w flagsIn)

/-- SHL (R80). -/
def execShl (w : Width) (value : Word) (rawCount : Nat) (s : State) : Host.Outcome State Fault Refusal :=
  .next (s.deliver (shlOutputs Config.chosen w value rawCount s.flagsIn))

/-- SAL (R81). -/
def execSal (w : Width) (value : Word) (rawCount : Nat) (s : State) : Host.Outcome State Fault Refusal :=
  .next (s.deliver (salOutputs Config.chosen w value rawCount s.flagsIn))

/-- SHR (R82). -/
def execShr (w : Width) (value : Word) (rawCount : Nat) (s : State) : Host.Outcome State Fault Refusal :=
  .next (s.deliver (shrOutputs Config.chosen w value rawCount s.flagsIn))

/-- SAR (R83). -/
def execSar (w : Width) (value : Word) (rawCount : Nat) (s : State) : Host.Outcome State Fault Refusal :=
  .next (s.deliver (sarOutputs Config.chosen w value rawCount s.flagsIn))

end Sys2Proof.Machine
end

