-- ==== Sys2Proof/Machine/Engine.lean ====
section
/-!
DEFINITION. The two engines as pure functions of a request's inputs and of the open parameters, with a fault outcome
(R10, R60, R69, R150).
-/

namespace Sys2Proof.Machine

/-- The outputs of a checked request with the flags word `flags_in` (R60 from step 2). -/
def outputs (p : Config) (i : Instr) (flagsIn : FlagsWord) : Outputs :=
  match i with
  | .rol w value n => rolOutputs p w value n flagsIn
  | .ror w value n => rorOutputs p w value n flagsIn
  | .rcl w value n => rclOutputs p w value n flagsIn
  | .rcr w value n => rcrOutputs p w value n flagsIn
  | .shl w value n => shlOutputs p w value n flagsIn
  | .shr w value n => shrOutputs p w value n flagsIn
  | .sal w value n => salOutputs p w value n flagsIn
  | .sar w value n => sarOutputs p w value n flagsIn
  | .shld w d s n => shldOutputs p w d s n flagsIn
  | .shrd w d s n => shrdOutputs p w d s n flagsIn

/-- `Evaluate` and `EvaluateDouble`: the enumeration check, then the outputs; or the reason of the contract
violation, with no output at all (R60, R61, R142). -/
def evaluateRequest (p : Config) (r : Request) (flagsIn : FlagsWord) : Except ViolationReason Outputs :=
  match decode r with
  | .ok i => .ok (outputs p i flagsIn)
  | .error reason => .error reason

end Sys2Proof.Machine
end

