-- ==== Sys2Proof/Machine/Dispatch.lean ====
section
/-!
DEFINITION. One arm per operation of the BSU: the effect of a checked request on the state.
-/

namespace Sys2Proof.Machine

def exec (i : Instr) (s : State) : Host.Outcome State Fault Refusal :=
  match i with
  | .rol w value rawCount => Sys2Proof.Machine.execRol w value rawCount s
  | .ror w value rawCount => Sys2Proof.Machine.execRor w value rawCount s
  | .rcl w value rawCount => Sys2Proof.Machine.execRcl w value rawCount s
  | .rcr w value rawCount => Sys2Proof.Machine.execRcr w value rawCount s
  | .shl w value rawCount => Sys2Proof.Machine.execShl w value rawCount s
  | .shr w value rawCount => Sys2Proof.Machine.execShr w value rawCount s
  | .sal w value rawCount => Sys2Proof.Machine.execSal w value rawCount s
  | .sar w value rawCount => Sys2Proof.Machine.execSar w value rawCount s
  | .shld w destination source rawCount => Sys2Proof.Machine.execShld w destination source rawCount s
  | .shrd w destination source rawCount => Sys2Proof.Machine.execShrd w destination source rawCount s

end Sys2Proof.Machine
end

