-- ==== Sys2Proof/Machine/Rounds.lean ====
section
/-!
DEFINITION. Evaluating the requests of a round (R34, R35, R150). Each is evaluated whole, in the order of the list;
requests with distinct flags words do not interfere (R35, R168), so the order is a device of the model (log entry 17).
-/

namespace Sys2Proof.Machine

/-- One request of one context: the enumeration check, then its evaluation with that context's flags word (R60). -/
def evalIssue (issue : Issue) (s : State) : Host.Outcome State Fault Refusal :=
  match decode issue.request with
  | .error reason => raiseContractViolation reason
  | .ok i => exec i (s.activate issue.context)

/-- The requests of a round, one after another, stopping at the first fault (R142, R148). -/
def evalRound : List Issue → State → Host.Outcome State Fault Refusal
  | [], s => .next s
  | issue :: rest, s =>
    match evalIssue issue s with
    | .next t => evalRound rest t
    | .fault r => .fault r
    | .refused r => .refused r

/-- A round: refused when two of its requests name one flags word (R36, R168; log entry 16), else evaluated. -/
def stepRound (round : List Issue) (s : State) : Host.Outcome State Fault Refusal :=
  if sharesFlagsWord round then .refused .flagsWordShared else evalRound round s

end Sys2Proof.Machine
end

