-- ==== Sys2Proof/Machine/Step.lean ====
section
/-!
DEFINITION. One step of the machine, and the placing of a request for it.
-/

namespace Sys2Proof.Machine

/-- One step evaluates the next round of requests (R60, R172); with none presented nothing happens (log entry 7). -/
def step (s : State) : Host.Outcome State Fault Refusal :=
  match s.nextRound with
  | none => .next s
  | some (round, s') => stepRound round s'

/-- `s` with the request whose selector is the number `w` presented next, by the active context, its data fields zero
(log entries 6 and 18). Requests are placed from outside: the BSU fetches none (R38). -/
def State.withFetchWord (s : State) (nbits w : Nat) : State := s.present (tableRequest nbits w)

end Sys2Proof.Machine
end

