-- ==== Sys2Proof/Safety.lean ====
section
/-!
DEFINITION. The terms the claims use: when a request is legal, what a safe run is, the invariant of the state, and the
spec's own ways of speaking about requests (their width, count and attributes) and about results and flags words.
-/

namespace Sys2Proof

/-- The width code is one of the four and the operation code one of the eight: the caller's duty (R47, R162 (a)). -/
def Request.legal : Request → Bool
  | .evaluate width op _ _ => decide (width < 4) && decide (op < 8)
  | .evaluateDouble width _ _ _ _ => decide (width < 4)

/-- The width of a request. -/
def Instr.width : Instr → Width
  | .rol w _ _ => w
  | .ror w _ _ => w
  | .rcl w _ _ => w
  | .rcr w _ _ => w
  | .shl w _ _ => w
  | .shr w _ _ => w
  | .sal w _ _ => w
  | .sar w _ _ => w
  | .shld w _ _ _ => w
  | .shrd w _ _ _ => w

/-- The raw count of a request. -/
def Instr.rawCount : Instr → Nat
  | .rol _ _ n => n
  | .ror _ _ n => n
  | .rcl _ _ n => n
  | .rcr _ _ n => n
  | .shl _ _ n => n
  | .shr _ _ n => n
  | .sal _ _ n => n
  | .sar _ _ n => n
  | .shld _ _ _ n => n
  | .shrd _ _ _ n => n

/-- The operand the result is built from: `value`, or `destination` (R21, R23). -/
def Instr.target : Instr → Word
  | .rol _ x _ => x
  | .ror _ x _ => x
  | .rcl _ x _ => x
  | .rcr _ x _ => x
  | .shl _ x _ => x
  | .shr _ x _ => x
  | .sal _ x _ => x
  | .sar _ x _ => x
  | .shld _ d _ _ => d
  | .shrd _ d _ _ => d

/-- The same request with another raw count. -/
def Instr.withRawCount (i : Instr) (n : Nat) : Instr :=
  match i with
  | .rol w x _ => .rol w x n
  | .ror w x _ => .ror w x n
  | .rcl w x _ => .rcl w x n
  | .rcr w x _ => .rcr w x n
  | .shl w x _ => .shl w x n
  | .shr w x _ => .shr w x n
  | .sal w x _ => .sal w x n
  | .sar w x _ => .sar w x n
  | .shld w d s _ => .shld w d s n
  | .shrd w d s _ => .shrd w d s n

/-- The same request with its operands masked to the width, as a caller that keeps its duty presents it (R20,
R162 (b)). -/
def Instr.maskOperands (i : Instr) : Instr :=
  match i with
  | .rol w x n => .rol w (x &&& BitVec.ofNat 64 (Machine.valueMask w)) n
  | .ror w x n => .ror w (x &&& BitVec.ofNat 64 (Machine.valueMask w)) n
  | .rcl w x n => .rcl w (x &&& BitVec.ofNat 64 (Machine.valueMask w)) n
  | .rcr w x n => .rcr w (x &&& BitVec.ofNat 64 (Machine.valueMask w)) n
  | .shl w x n => .shl w (x &&& BitVec.ofNat 64 (Machine.valueMask w)) n
  | .shr w x n => .shr w (x &&& BitVec.ofNat 64 (Machine.valueMask w)) n
  | .sal w x n => .sal w (x &&& BitVec.ofNat 64 (Machine.valueMask w)) n
  | .sar w x n => .sar w (x &&& BitVec.ofNat 64 (Machine.valueMask w)) n
  | .shld w d s n =>
    .shld w (d &&& BitVec.ofNat 64 (Machine.valueMask w)) (s &&& BitVec.ofNat 64 (Machine.valueMask w)) n
  | .shrd w d s n =>
    .shrd w (d &&& BitVec.ofNat 64 (Machine.valueMask w)) (s &&& BitVec.ofNat 64 (Machine.valueMask w)) n

/-- The direction of an operation (R22). -/
inductive Direction
  | left
  | right
  deriving DecidableEq, Repr

/-- The attribute *direction* (R22). -/
def Instr.direction : Instr → Direction
  | .rol _ _ _ => .left
  | .ror _ _ _ => .right
  | .rcl _ _ _ => .left
  | .rcr _ _ _ => .right
  | .shl _ _ _ => .left
  | .shr _ _ _ => .right
  | .sal _ _ _ => .left
  | .sar _ _ _ => .right
  | .shld _ _ _ _ => .left
  | .shrd _ _ _ _ => .right

/-- The attribute *carry-chained*: the incoming CF is an input of the result (R22). -/
def Instr.carryChained : Instr → Bool
  | .rcl _ _ _ => true
  | .rcr _ _ _ => true
  | .rol _ _ _ => false
  | .ror _ _ _ => false
  | .shl _ _ _ => false
  | .shr _ _ _ => false
  | .sal _ _ _ => false
  | .sar _ _ _ => false
  | .shld _ _ _ _ => false
  | .shrd _ _ _ _ => false

/-- The attribute *arithmetic*: sign-extends rather than zero-fills (R22). -/
def Instr.arithmetic : Instr → Bool
  | .sar _ _ _ => true
  | .rol _ _ _ => false
  | .ror _ _ _ => false
  | .rcl _ _ _ => false
  | .rcr _ _ _ => false
  | .shl _ _ _ => false
  | .shr _ _ _ => false
  | .sal _ _ _ => false
  | .shld _ _ _ _ => false
  | .shrd _ _ _ _ => false

/-- The attribute *defines-full-flag-set* (R22, C1): ZF, SF and PF are written too. -/
def Instr.definesFullFlagSet : Instr → Bool
  | .rol _ _ _ => false
  | .ror _ _ _ => false
  | .rcl _ _ _ => false
  | .rcr _ _ _ => false
  | .shl _ _ _ => true
  | .shr _ _ _ => true
  | .sal _ _ _ => true
  | .sar _ _ _ => true
  | .shld _ _ _ _ => true
  | .shrd _ _ _ _ => true

namespace Machine

/-- The effective count of a request (R62). -/
def count (i : Instr) : Nat := effectiveCount i.width i.rawCount

/-- `x & M` as a number (R6, R64). -/
def masked (w : Width) (x : Word) : Nat := x.toNat &&& valueMask w

/-- The set of fields an operation owns at an effective count of at least 1 (R18 (e)). -/
def ownedFlags (i : Instr) : List Flag :=
  if i.definesFullFlagSet then [.cf, .of, .zf, .sf, .pf] else [.cf, .of]

/-- From the flags word `f` to the flags word `g` only the named fields were written: every other bit is as it was. -/
def OnlyWrites (fields : List Flag) (f g : FlagsWord) : Prop :=
  ∀ b : Nat, (∀ x ∈ fields, flagPos x ≠ b) → g.getLsbD b = f.getLsbD b

/-- ZF, SF and PF of the flags word `f` are those of the N-bit result `r` (R66), said over numbers: zero, bit N-1,
and an even number of 1 bits in the low byte. -/
def SzpOf (f : FlagsWord) (r N : Nat) : Prop :=
  getFlag f .zf = decide (r = 0) ∧ getFlag f .sf = r.testBit (N - 1) ∧
    getFlag f .pf = decide (((List.range 8).filter (fun i => r.testBit i)).length % 2 = 0)

/-- The signed value of the N-bit pattern of `x`, `sext_N` (R6). -/
def signedValue (w : Width) (x : Word) : Int :=
  if (masked w x).testBit (w.bits - 1) then (masked w x : Int) - 2 ^ w.bits else masked w x

/-- One bit of a double shift to the left: the destination takes the source's high bit, the source takes a zero
(R123). -/
def pairStepLeft {n : Nat} (p : BitVec n × BitVec n) : BitVec n × BitVec n :=
  ((p.1 <<< 1) ||| (BitVec.ofBool p.2.msb).setWidth n, p.2 <<< 1)

/-- One bit of a double shift to the right: the destination takes the source's low bit, the source takes a zero
(R123). -/
def pairStepRight {n : Nat} (p : BitVec n × BitVec n) : BitVec n × BitVec n :=
  ((p.1 >>> 1) ||| ((BitVec.ofBool (p.2.getLsbD 0)).setWidth n <<< (n - 1)), p.2 >>> 1)

/-- Every request presented is legal and no round has two requests on one flags word. -/
def State.legal (s : State) : Prop :=
  ∀ round ∈ s.rounds, sharesFlagsWord round = false ∧ ∀ issue ∈ round, issue.request.legal = true

/-- The invariant of the state: the store of contexts is in its canonical form. -/
def State.Inv (s : State) : Prop := contextsCanonical s.contexts

/-- The state with only the requests of context `k` kept, every round in its place: `k` runs alone (R35). -/
def State.only (s : State) (k : Nat) : State :=
  { s with rounds := s.rounds.map (fun round => round.filter (fun issue => decide (issue.context = k))) }

/-- `k` steps of the machine, stopping at the first fault or refusal: the host's run of `core`
(`Laws/Machine.lean`, `run_eq_core_run`). -/
def run : Nat → State → Host.Outcome State Fault Refusal
  | 0, s => .next s
  | k + 1, s =>
    match step s with
    | .next t => run k t
    | .fault f => .fault f
    | .refused q => .refused q

/-- A safe run: no number of steps ends in a fault or a refusal. -/
def SafeRun (s : State) : Prop := ∀ k : Nat, ∃ t : State, run k s = .next t

end Machine

end Sys2Proof
end

