-- ==== Sys2Proof/Certificates/Slice0/Obligations.lean ====
section
/-!
DEFINITION. The statements about the machine, for the provers. Each is stated from the numbered rules of spec/ over
numbers and bits, while the machine computes on N-bit patterns. `c` is the effective count (R62), `masked w x` is
`x & M` (R64), and a flags word's fields are read with `getFlag`.
-/

open Sys2Proof Sys2Proof.Machine

/-! ### Requests, lines and the enumeration check -/

/-- Sections 3 and 6 of 30_encoding.md (the codes are the spec's own choice: D3 to D5, D18; log entry 2): decoding an
encoded request gives it back with every operand, and a line that decodes to a request is that request's encoding. -/
def Obligations.DecodeAndEncodeAgree : Prop :=
  (∀ i : Instr, decodeLine (encode i) = .ok i) ∧
    ∀ (l : Line) (i : Instr), decodeLine l = .ok i → encode i = l

/-- Section 3 of 30_encoding.md: every selector value of both formats is assigned, so every line is the encoding of
exactly one request. -/
def Obligations.EveryLineIsExactlyOneRequest : Prop :=
  ∀ l : Line, ∃ i : Instr, encode i = l ∧ decodeLine l = .ok i ∧ ∀ j : Instr, encode j = l → j = i

/-- Lines written out in 95_test_vectors.md section 3 (SHL, RCL, SHRD, SAR), and one of SAL and SHLD each by the
patterns of section 3 of 30_encoding.md, read as the requests they stand for. The numeric codes and the packing of the
selectors are no rule of the source but the spec's own choice (D3 to D5, D18), which the model takes: log entry 2,
PRESUMED. -/
def Obligations.WrittenLinesDecode : Prop :=
  decodeLine (.eval 0b11100#5 0x8000000000000001#64 1) = .ok (.shl .w64 0x8000000000000001#64 1) ∧
  decodeLine (.eval 0b11010#5 0x0000000000000001#64 1) = .ok (.rcl .w64 0x0000000000000001#64 1) ∧
  decodeLine (.evald 0b101#3 0x89ABCDEF#64 0x01234567#64 8) = .ok (.shrd .w32 0x89ABCDEF#64 0x01234567#64 8) ∧
  decodeLine (.eval 0b01111#5 0x8000#64 15) = .ok (.sar .w16 0x8000#64 15) ∧
  decodeLine (.eval 0b00110#5 0x81#64 1) = .ok (.sal .w8 0x81#64 1) ∧
  decodeLine (.evald 0b000#3 0x81#64 0x0F#64 1) = .ok (.shld .w8 0x81#64 0x0F#64 1)

/-- R140, R171: a request presented alone ends, and in the contract violation exactly when its width or its operation
is outside the enumeration; no operand, count or flags word can raise it. -/
def Obligations.ContractViolationExactlyOutsideEnumerations : Prop :=
  ∀ (k : Nat) (r : Request) (rest : List (List Issue)) (s : State),
    s.rounds = [{ context := k, request := r }] :: rest →
      (r.legal = true ↔ ∃ t : State, step s = .next t) ∧
        (r.legal = false ↔ ∃ reason : ViolationReason, step s = .fault (.contractViolation reason))

/-- Sections 1 and 3 of 60_exceptions.md (the names of the reasons and the order are the spec's own choice, D12, D21;
log entry 14): a bad width is reported before a bad operation, whatever the operands and whatever the count, zero
included. -/
def Obligations.BadWidthReportedBeforeBadOperation : Prop :=
  ∀ (k width op : Nat) (x d y : Word) (n : Nat) (right : Bool) (rest : List (List Issue)) (s : State),
    (¬ width < 4 ∨ ¬ op < 8 →
      step { s with rounds := [{ context := k, request := .evaluate width op x n }] :: rest } =
        .fault (.contractViolation (if width < 4 then .badOperation else .badWidth))) ∧
    (¬ width < 4 →
      step { s with rounds := [{ context := k, request := .evaluateDouble width d y n right }] :: rest } =
        .fault (.contractViolation .badWidth))

/-- Section 4 of 60_exceptions.md (log entry 15, DEDUCED; D20): a contract violation is terminal. From every state whose
next round is one request outside the enumerations, every run of one step or more ends in the contract violation, with
the reason of that request, whatever else is presented. -/
def Obligations.FaultEndsEveryRun : Prop :=
  ∀ (k : Nat) (r : Request) (rest : List (List Issue)) (s : State),
    s.rounds = [{ context := k, request := r }] :: rest → r.legal = false →
      ∃ reason : ViolationReason, decode r = .error reason ∧
        ∀ m : Nat, run (m + 1) s = .fault (.contractViolation reason)

/-- R144: no other fault exists. A step faults only with the contract violation, and only when some request of the
round it evaluates is outside the enumerations; a round of requests inside them, each on its own flags word, is
evaluated. -/
def Obligations.NoOtherFaultExists : Prop :=
  (∀ (s : State) (f : Fault), step s = .fault f →
    ∃ (reason : ViolationReason) (round : List Issue) (rest : List (List Issue)),
      f = .contractViolation reason ∧ s.rounds = round :: rest ∧ ∃ issue ∈ round, issue.request.legal = false) ∧
  ∀ (s : State) (round : List Issue) (rest : List (List Issue)), s.rounds = round :: rest →
    sharesFlagsWord round = false → (∀ issue ∈ round, issue.request.legal = true) → ∃ t : State, step s = .next t

/-- Section 1 of 60_exceptions.md and section 6 of 20_memory.md (log entries 7, 16): when every request presented is
legal and no round names a flags word twice, the machine runs for any number of steps. -/
def Obligations.LegalRequestsRunSafely : Prop :=
  ∀ s : State, s.legal → SafeRun s

/-- Section 6 of 20_memory.md (D22, log entry 16, is the spec's own choice): the machine refuses exactly the round in
which two requests name the same flags word. -/
def Obligations.RefusesExactlyASharedFlagsWord : Prop :=
  ∀ (s : State) (q : Refusal), step s = .refused q ↔
    q = .flagsWordShared ∧
      ∃ (round : List Issue) (rest : List (List Issue)), s.rounds = round :: rest ∧ sharesFlagsWord round = true

/-! ### The step -/

/-- Section 1 of 40_common_evaluate.md: a request presented alone that decodes to `i` is evaluated as `i`, on the
state in which its round is taken off and its context is the active one (log entry 5). -/
def Obligations.StepEvaluatesTheDecodedRequest : Prop :=
  ∀ (k : Nat) (r : Request) (rest : List (List Issue)) (i : Instr) (s : State),
    s.rounds = [{ context := k, request := r }] :: rest → decode r = .ok i →
      step s = exec i { s with rounds := rest, active := k }

/-- Section 1 of 10_state.md; the model's choice, log entry 7: with no request presented a step changes nothing; that
is so after reset (R26 gives no reset value; log entry 6). -/
def Obligations.NothingHappensWithoutARequest : Prop :=
  (∀ s : State, s.rounds = [] → step s = .next s) ∧ step State.reset = .next State.reset

/-- R10, R69: the outcome of a request is a function of its own inputs, which are the request and the flags word of its
context, whatever was evaluated before and whatever else the machine holds. -/
def Obligations.OutcomeDependsOnInputsOnly : Prop :=
  ∀ (k k' : Nat) (r : Request) (rest rest' : List (List Issue)) (s s' : State),
    s.rounds = [{ context := k, request := r }] :: rest →
    s'.rounds = [{ context := k', request := r }] :: rest' →
    s.flagsOf k = s'.flagsOf k' →
      (∀ f : Fault, step s = .fault f ↔ step s' = .fault f) ∧
      ∀ t : State, step s = .next t →
        ∃ t' : State, step s' = .next t' ∧
          t'.resultOf k' = t.resultOf k ∧ t'.flagsOf k' = t.flagsOf k

/-- Sections 4 and 6 of 20_memory.md: a request changes nothing but its own context's flags word and result. Every
other context, the requests still to come and the owner of the flags word are as they were. For all ten operations. -/
def Obligations.RequestTouchesOnlyItsOwnContext : Prop :=
  ∀ (i : Instr) (s t : State), exec i s = .next t →
    t.rounds = s.rounds ∧ t.active = s.active ∧ ∀ k : Nat, k ≠ s.active → t.context k = s.context k

/-- Section 3 of 70_reset_and_hazards.md: a step leaves alone the flags word and the result of every context that has
no request in the round evaluated. -/
def Obligations.StepLeavesIdleContextsAlone : Prop :=
  ∀ (s t : State) (round : List Issue) (rest : List (List Issue)) (k : Nat),
    s.rounds = round :: rest → step s = .next t → (∀ issue ∈ round, issue.context ≠ k) →
      t.rounds = rest ∧ t.context k = s.context k

/-- R35: any interleaving of requests of different callers gives each caller the same outputs as if it ran alone. After
any number of steps of any mixture of requests, context `k` holds what it holds when only its own requests run. -/
def Obligations.EachCallerAsIfAlone : Prop :=
  ∀ (m k : Nat) (s t : State), run m s = .next t →
    ∃ t' : State, run m (s.only k) = .next t' ∧ t'.context k = t.context k

/-- Section 7 of 60_exceptions.md: of requests in evaluation at the same time on distinct flags words, the order in
which the model evaluates them is immaterial (log entry 17). -/
def Obligations.OrderWithinARoundIsImmaterial : Prop :=
  ∀ (round round' : List Issue) (rest : List (List Issue)) (s : State),
    round.Perm round' → sharesFlagsWord round = false → (∀ issue ∈ round, issue.request.legal = true) →
      ∃ t t' : State, step { s with rounds := round :: rest } = .next t ∧
        step { s with rounds := round' :: rest } = .next t' ∧
        t.rounds = t'.rounds ∧ ∀ k : Nat, t.context k = t'.context k

/-- The model's invariant (log entry 5): every step keeps the canonical form of the store of contexts. -/
def Obligations.StepKeepsCanonicalForm : Prop :=
  ∀ s t : State, s.Inv → step s = .next t → t.Inv

/-- The model's invariant holds after reset, nothing is presented then, and every context's flags word and result are
the model's own choice of zero (log entry 6; the spec gives none, R26). -/
def Obligations.ResetMeetsTheModelsChoices : Prop :=
  State.reset.Inv ∧ State.reset.rounds = [] ∧
    ∀ k : Nat, State.reset.flagsOf k = 0 ∧ State.reset.resultOf k = 0

/-- Section 3 of 10_state.md (that unknown bits pass through is the spec's inference from its first invariant): no step
changes AF or any bit of any context's flags word that is none of CF, PF, ZF, SF, OF. -/
def Obligations.StepKeepsAfAndUnknownBits : Prop :=
  ∀ (s t : State) (k : Nat), step s = .next t →
    OnlyWrites [.cf, .of, .zf, .sf, .pf] (s.flagsOf k) (t.flagsOf k)

/-! ### Common to all ten operations -/

/-- The width table of 10_state.md section 2 (the codes are the spec's own choice): value masks, count masks and the
range of the effective count. -/
def Obligations.WidthTable : Prop :=
  valueMask .w8 = 0xFF ∧ valueMask .w16 = 0xFFFF ∧ valueMask .w32 = 0xFFFFFFFF ∧
    valueMask .w64 = 0xFFFFFFFFFFFFFFFF ∧
    ∀ (w : Width) (n : Nat), effectiveCount w n = n % (if w.bits = 64 then 64 else 32)

/-- R62: the raw count is used only through its effective count; a raw count of any magnitude is legal. Every
operation with raw count `n` does what it does with the masked count. -/
def Obligations.OnlyTheMaskedCountMatters : Prop :=
  ∀ (i : Instr) (s : State),
    count i = i.rawCount &&& (if i.width.bits = 64 then 0x3F else 0x1F) ∧
    (exec i s = exec (i.withRawCount (i.rawCount &&& (if i.width.bits = 64 then 0x3F else 0x1F))) s) ∧
      ∃ t : State, exec i s = .next t

/-- Section 4 of 10_state.md with section 3 of 40_common_evaluate.md: an operand is treated as living inside the value
mask. Every operation does with any operands what it does with the operands masked to the width, as the caller should
have presented them, and masks its result. What is done with an operand its caller left unmasked, at effective count
zero too, is the spec's own choice (D7, C8; D23, C3): log entry 13, DEDUCED. -/
def Obligations.BitsAboveTheWidthAreIgnored : Prop :=
  ∀ (i : Instr) (s : State),
    i.maskOperands.wf = true ∧ (i.wf = true → i.maskOperands = i) ∧ exec i.maskOperands s = exec i s ∧
      ∃ t : State, exec i s = .next t ∧ i.width.fits (t.resultOf s.active) = true

/-- Section 2 of 40_common_evaluate.md (that an unmasked operand comes back masked is the spec's own choice, D23, log
entry 13): at effective count zero every operation returns its operand and leaves the whole flags word as it was. -/
def Obligations.ZeroCountChangesNothing : Prop :=
  ∀ (i : Instr) (s : State), count i = 0 →
    ∃ t : State, exec i s = .next t ∧
      (t.resultOf s.active).toNat = masked i.width i.target ∧
      (i.wf = true → t.resultOf s.active = i.target) ∧
      t.flagsOf s.active = s.flagsIn

/-- R65: the result of every request has zeros above the width, at every width and every count. -/
def Obligations.ResultStaysInsideTheWidth : Prop :=
  ∀ (i : Instr) (s : State),
    ∃ t : State, exec i s = .next t ∧ ∀ b : Nat, i.width.bits ≤ b → (t.resultOf s.active).getLsbD b = false

/-- R66: ZF, SF and PF come from the result in the six operations that define the full flag set, at every effective
count from 1 up, and are otherwise left as they were. -/
def Obligations.SzpFromResultExactlyInShifts : Prop :=
  ∀ (i : Instr) (s : State),
    ∃ t : State, exec i s = .next t ∧
      (i.definesFullFlagSet = true → 1 ≤ count i →
        SzpOf (t.flagsOf s.active) (t.resultOf s.active).toNat i.width.bits) ∧
      (i.definesFullFlagSet = false ∨ count i = 0 →
        ∀ x : Flag, x = .zf ∨ x = .sf ∨ x = .pf → getFlag (t.flagsOf s.active) x = getFlag s.flagsIn x)

/-- Section 3 of 10_state.md, invariants (a) to (e): an operation writes the fields it owns at its effective count and
no other bit of its context's flags word; at count zero it writes none. -/
def Obligations.OnlyOwnedFlagsAreWritten : Prop :=
  ∀ (i : Instr) (s t : State), exec i s = .next t →
    OnlyWrites (if count i = 0 then [] else ownedFlags i) s.flagsIn (t.flagsOf s.active)

/-- Section 3 of 10_state.md (the spec's inference from its operation rules): the result, and at a non-zero count the
flags written, depend on the incoming flags word through CF alone, and that only for RCL and RCR; OF at effective
count 2 or more may read it. For every choice of the open parameters. -/
def Obligations.OnlyCarryRotatesReadTheFlags : Prop :=
  ∀ (p : Config) (i : Instr) (f g : FlagsWord),
    (i.carryChained = true → getFlag f .cf = getFlag g .cf) →
      (outputs p i f).result = (outputs p i g).result ∧
      (1 ≤ count i → ∀ x ∈ ownedFlags i, (x = .of → count i = 1) →
        getFlag (outputs p i f).flagsOut x = getFlag (outputs p i g).flagsOut x)

/-- Derived from the count-1 rules of files 41 to 44: at effective count 1 every left-going operation puts the old bit
N-1 in CF and every right-going one the old bit 0. -/
def Obligations.CarryAtCountOneByDirection : Prop :=
  ∀ (i : Instr) (s : State), count i = 1 →
    ∃ t : State, exec i s = .next t ∧
      getFlag (t.flagsOf s.active) .cf =
        match i.direction with
        | .left => (masked i.width i.target).testBit (i.width.bits - 1)
        | .right => (masked i.width i.target).testBit 0

/-- Derived from the count-1 rules of files 41 to 44: at effective count 1 OF says that the sign bit changed, for every
operation but ROR, whose OF is open (R101, log entry 10). -/
def Obligations.OverflowAtCountOneIsSignChange : Prop :=
  ∀ (i : Instr) (s : State), count i = 1 → (∀ (w : Width) (x : Word) (n : Nat), i ≠ .ror w x n) →
    ∃ t : State, exec i s = .next t ∧
      getFlag (t.flagsOf s.active) .of =
        ((masked i.width i.target).testBit (i.width.bits - 1) ^^
          (t.resultOf s.active).toNat.testBit (i.width.bits - 1))

/-- Section 5 of 40_common_evaluate.md: counts at or above the width. The logical shifts give zero, SAR all sign bits
(also at N-1), a rotate by a multiple of N the operand. -/
def Obligations.CountsAtOrAboveTheWidth : Prop :=
  ∀ (w : Width) (x : Word) (n : Nat) (s : State),
    (w.bits ≤ effectiveCount w n →
      ∃ t u v : State, exec (.shl w x n) s = .next t ∧ exec (.sal w x n) s = .next u ∧
        exec (.shr w x n) s = .next v ∧
        t.resultOf s.active = 0 ∧ u.resultOf s.active = 0 ∧ v.resultOf s.active = 0) ∧
    (w.bits - 1 ≤ effectiveCount w n →
      ∃ t : State, exec (.sar w x n) s = .next t ∧
        (t.resultOf s.active).toNat = if (masked w x).testBit (w.bits - 1) then valueMask w else 0) ∧
    (effectiveCount w n % w.bits = 0 →
      ∃ t u : State, exec (.rol w x n) s = .next t ∧ exec (.ror w x n) s = .next u ∧
        (t.resultOf s.active).toNat = masked w x ∧ (u.resultOf s.active).toNat = masked w x)

/-! ### Shifts (41_shifts.md) -/

/-- Section 2 of 41_shifts.md, with section 1 for CF above the width (the spec's own choice D8, log entry 12). -/
def Obligations.ShlResultAndFlags : Prop :=
  ∀ (w : Width) (value : Word) (n : Nat) (s : State), 1 ≤ effectiveCount w n →
    let N := w.bits
    let v := masked w value
    let c := effectiveCount w n
    ∃ t : State, exec (.shl w value n) s = .next t ∧
      let r := (t.resultOf s.active).toNat
      let f := t.flagsOf s.active
      r = (v <<< c) &&& valueMask w ∧
      getFlag f .cf = (if c ≤ N then v.testBit (N - c) else false) ∧
      getFlag f .of = (if c = 1 then r.testBit (N - 1) ^^ getFlag f .cf
        else ofSingle Config.chosen w .shl (operand w value) c s.flagsIn) ∧
      SzpOf f r N ∧ OnlyWrites [.cf, .of, .zf, .sf, .pf] s.flagsIn f

/-- Section 3 of 41_shifts.md: SAL is a synonym of SHL under its own code: the same outputs on every input, and so the
result and flags SHL has. That its operation code is 6 is the spec's own choice (D3, D25): log entry 2, PRESUMED. That
the open OF of SAL is that of SHL is a constraint the spec imposes itself: log entry 20, DEDUCED. -/
def Obligations.SalIsShl : Prop :=
  ∀ (w : Width) (value : Word) (n : Nat) (s : State),
    exec (.sal w value n) s = exec (.shl w value n) s ∧
    (∀ (p : Config) (v : BitVec w.bits) (c : Nat) (f : FlagsWord), ofSingle p w .sal v c f = ofSingle p w .shl v c f) ∧
    decodeLine (.eval (w.code ++ 6#3) value n) = .ok (.sal w value n) ∧
    ∃ t : State, exec (.sal w value n) s = .next t ∧
      OnlyWrites [.cf, .of, .zf, .sf, .pf] s.flagsIn (t.flagsOf s.active) ∧
      (t.resultOf s.active).toNat = (masked w value <<< effectiveCount w n) &&& valueMask w

/-- Section 4 of 41_shifts.md, with section 1 for CF above the width (the spec's own choice D8, log entry 12). -/
def Obligations.ShrResultAndFlags : Prop :=
  ∀ (w : Width) (value : Word) (n : Nat) (s : State), 1 ≤ effectiveCount w n →
    let N := w.bits
    let v := masked w value
    let c := effectiveCount w n
    ∃ t : State, exec (.shr w value n) s = .next t ∧
      let r := (t.resultOf s.active).toNat
      let f := t.flagsOf s.active
      r = v >>> c ∧
      getFlag f .cf = (if c ≤ N then v.testBit (c - 1) else false) ∧
      getFlag f .of = (if c = 1 then v.testBit (N - 1)
        else ofSingle Config.chosen w .shr (operand w value) c s.flagsIn) ∧
      SzpOf f r N ∧ OnlyWrites [.cf, .of, .zf, .sf, .pf] s.flagsIn f

/-- Section 5 of 41_shifts.md, with section 1 for CF above the width (the spec's own choice D8, log entry 12): the
result is the signed operand divided by `2^c`, rounded down, as an N-bit pattern. -/
def Obligations.SarResultAndFlags : Prop :=
  ∀ (w : Width) (value : Word) (n : Nat) (s : State), 1 ≤ effectiveCount w n →
    let N := w.bits
    let v := masked w value
    let c := effectiveCount w n
    ∃ t : State, exec (.sar w value n) s = .next t ∧
      let r := (t.resultOf s.active).toNat
      let f := t.flagsOf s.active
      (r : Int) = (signedValue w value / 2 ^ c) % 2 ^ N ∧
      getFlag f .cf = v.testBit (min (c - 1) (N - 1)) ∧
      getFlag f .of = (if c = 1 then false
        else ofSingle Config.chosen w .sar (operand w value) c s.flagsIn) ∧
      SzpOf f r N ∧ OnlyWrites [.cf, .of, .zf, .sf, .pf] s.flagsIn f

/-- Section 1 of 41_shifts.md (above the width the spec's own choice D8, log entry 12): CF of a shift is the bit that
leaves the operand at the last of `c` one-bit steps, also when `c` passes the width. -/
def Obligations.ShiftCarryIsTheLastBitOut : Prop :=
  ∀ (w : Width) (value : Word) (n : Nat) (s : State), 1 ≤ effectiveCount w n →
    let v := operand w value
    let before := effectiveCount w n - 1
    ∃ t u x y : State, exec (.shl w value n) s = .next t ∧ exec (.sal w value n) s = .next u ∧
      exec (.shr w value n) s = .next x ∧ exec (.sar w value n) s = .next y ∧
      getFlag (t.flagsOf s.active) .cf = ((fun b : BitVec w.bits => b <<< 1)^[before] v).msb ∧
      getFlag (u.flagsOf s.active) .cf = ((fun b : BitVec w.bits => b <<< 1)^[before] v).msb ∧
      getFlag (x.flagsOf s.active) .cf = ((fun b : BitVec w.bits => b >>> 1)^[before] v).getLsbD 0 ∧
      getFlag (y.flagsOf s.active) .cf = ((fun b : BitVec w.bits => b.sshiftRight 1)^[before] v).getLsbD 0

/-- Section 5 of 40_common_evaluate.md: nothing saturates. A left shift multiplies by `2^c` modulo `2^N`, a logical
right shift divides the unsigned operand by `2^c`. -/
def Obligations.ShiftsMultiplyAndDivide : Prop :=
  ∀ (w : Width) (value : Word) (n : Nat) (s : State),
    ∃ t u : State, exec (.shl w value n) s = .next t ∧ exec (.shr w value n) s = .next u ∧
      (t.resultOf s.active).toNat = value.toNat * 2 ^ effectiveCount w n % 2 ^ w.bits ∧
      (u.resultOf s.active).toNat = value.toNat % 2 ^ w.bits / 2 ^ effectiveCount w n

/-- The attribute *arithmetic* of section 5 of 10_state.md: at a non-zero count the bits a right shift vacates take the
sign of the operand when the operation is arithmetic, and zero when it is not. -/
def Obligations.RightShiftsFillByTheirAttribute : Prop :=
  ∀ (w : Width) (value : Word) (n : Nat) (s : State) (i : Instr), i = .shr w value n ∨ i = .sar w value n →
    1 ≤ effectiveCount w n →
      ∃ t : State, exec i s = .next t ∧
        ∀ b : Nat, w.bits ≤ b + effectiveCount w n → b < w.bits →
          (t.resultOf s.active).getLsbD b = (i.arithmetic && (masked w value).testBit (w.bits - 1))

/-! ### Rotates (42_rotates.md) -/

/-- Section 1 of 42_rotates.md (`c mod N` and `cf = r[0]` are the spec's inference from the quoted text): CF and OF are
written at every non-zero count, also when the count is a multiple of N. -/
def Obligations.RolResultAndFlags : Prop :=
  ∀ (w : Width) (value : Word) (n : Nat) (s : State), 1 ≤ effectiveCount w n →
    let N := w.bits
    let v := masked w value
    let c := effectiveCount w n
    let k := c % N
    ∃ t : State, exec (.rol w value n) s = .next t ∧
      let r := (t.resultOf s.active).toNat
      let f := t.flagsOf s.active
      r = (if k = 0 then v else ((v <<< k) ||| (v >>> (N - k))) &&& valueMask w) ∧
      getFlag f .cf = r.testBit 0 ∧
      getFlag f .of = (if c = 1 then r.testBit (N - 1) ^^ getFlag f .cf
        else ofSingle Config.chosen w .rol (operand w value) c s.flagsIn) ∧
      OnlyWrites [.cf, .of] s.flagsIn f

/-- Section 2 of 42_rotates.md (`c mod N` and `cf = r[N-1]` are the spec's inference); OF at count 1 under whichever
value the open parameter `ROR_OF1` has (D11, log entry 10). -/
def Obligations.RorResultAndFlags : Prop :=
  ∀ (w : Width) (value : Word) (n : Nat) (s : State), 1 ≤ effectiveCount w n →
    let N := w.bits
    let v := masked w value
    let c := effectiveCount w n
    let k := c % N
    ∃ t : State, exec (.ror w value n) s = .next t ∧
      let r := (t.resultOf s.active).toNat
      let f := t.flagsOf s.active
      r = (if k = 0 then v else ((v >>> k) ||| (v <<< (N - k))) &&& valueMask w) ∧
      getFlag f .cf = r.testBit (N - 1) ∧
      getFlag f .of = (if c = 1 then
          (match Config.chosen.rorOf1 with
            | .doc => r.testBit (N - 1) ^^ getFlag f .cf
            | .signChange => v.testBit (N - 1) ^^ r.testBit (N - 1))
        else ofSingle Config.chosen w .ror (operand w value) c s.flagsIn) ∧
      OnlyWrites [.cf, .of] s.flagsIn f

/-- Section 2 of 42_rotates.md: OF of ROR by 1 is always 0 under `doc`, and under `sign_change` it is 1 exactly when
bit N-1 and bit 0 of the operand differ. For every choice of the open parameters (D11, log entry 10). -/
def Obligations.RorOverflowUnderBothParameterValues : Prop :=
  ∀ (p : Config) (w : Width) (value : Word) (n : Nat) (f : FlagsWord), effectiveCount w n = 1 →
    getFlag (rorOutputs p w value n f).flagsOut .of =
      match p.rorOf1 with
      | .doc => false
      | .signChange => (masked w value).testBit (w.bits - 1) ^^ (masked w value).testBit 0

/-- Section 3 of 42_rotates.md (for counts of N and above the spec's own extension): rotating one way and then back by
the same raw count returns the operand, in both orders, for every choice of the open parameters. -/
def Obligations.RotatesUndoEachOther : Prop :=
  ∀ (p : Config) (w : Width) (value : Word) (n : Nat) (f g : FlagsWord),
    ((rorOutputs p w (rolOutputs p w value n f).result n g).result).toNat = masked w value ∧
    ((rolOutputs p w (rorOutputs p w value n f).result n g).result).toNat = masked w value

/-! ### Carry-chained rotates (43_carry_rotates.md) -/

/-- Section 1 of 43_carry_rotates.md: RCL and RCR rotate the ring `{cf_in, v}` of N+1 bits, carry at the high end, by
`c` places, one bit at a time: one step to the left moves bit N to bit 0 and one to the right bit 0 to bit N; and `c`
steps are `c mod (N+1)` steps, which is the spec's inference from a ring of N+1 bits. -/
def Obligations.CarryRotatesTurnTheRing : Prop :=
  ∀ (w : Width) (value : Word) (n : Nat) (s : State), 1 ≤ effectiveCount w n →
    let start : Ring w.bits := (getFlag s.flagsIn .cf, operand w value)
    let c := effectiveCount w n
    (∀ ring : Ring w.bits,
      BitVec.cons (ringStepLeft ring).1 (ringStepLeft ring).2 = (BitVec.cons ring.1 ring.2).rotateLeft 1 ∧
      BitVec.cons (ringStepRight ring).1 (ringStepRight ring).2 = (BitVec.cons ring.1 ring.2).rotateRight 1) ∧
    ringStepLeft^[c] start = ringStepLeft^[c % (w.bits + 1)] start ∧
    ringStepRight^[c] start = ringStepRight^[c % (w.bits + 1)] start ∧
    ∃ t u : State, exec (.rcl w value n) s = .next t ∧ exec (.rcr w value n) s = .next u ∧
      (getFlag (t.flagsOf s.active) .cf, operand w (t.resultOf s.active)) = ringStepLeft^[c] start ∧
      (getFlag (u.flagsOf s.active) .cf, operand w (u.resultOf s.active)) = ringStepRight^[c] start

/-- Section 2 of 43_carry_rotates.md (the closed form is the spec's inference from the ring): the incoming carry is the
one in the flags word before the request. -/
def Obligations.RclResultAndFlags : Prop :=
  ∀ (w : Width) (value : Word) (n : Nat) (s : State), 1 ≤ effectiveCount w n →
    let N := w.bits
    let v := masked w value
    let c := effectiveCount w n
    let k := c % (N + 1)
    let cfIn := getFlag s.flagsIn .cf
    ∃ t : State, exec (.rcl w value n) s = .next t ∧
      let r := (t.resultOf s.active).toNat
      let f := t.flagsOf s.active
      r = (if k = 0 then v
        else ((v <<< k) ||| (cfIn.toNat <<< (k - 1)) ||| (v >>> (N + 1 - k))) &&& valueMask w) ∧
      getFlag f .cf = (if k = 0 then cfIn else v.testBit (N - k)) ∧
      getFlag f .of = (if c = 1 then r.testBit (N - 1) ^^ getFlag f .cf
        else ofSingle Config.chosen w .rcl (operand w value) c s.flagsIn) ∧
      OnlyWrites [.cf, .of] s.flagsIn f

/-- Section 3 of 43_carry_rotates.md (the closed form is the spec's inference from the ring; C2 for the corrected
example). -/
def Obligations.RcrResultAndFlags : Prop :=
  ∀ (w : Width) (value : Word) (n : Nat) (s : State), 1 ≤ effectiveCount w n →
    let N := w.bits
    let v := masked w value
    let c := effectiveCount w n
    let k := c % (N + 1)
    let cfIn := getFlag s.flagsIn .cf
    ∃ t : State, exec (.rcr w value n) s = .next t ∧
      let r := (t.resultOf s.active).toNat
      let f := t.flagsOf s.active
      r = (if k = 0 then v
        else ((v >>> k) ||| (cfIn.toNat <<< (N - k)) ||| (v <<< (N + 1 - k))) &&& valueMask w) ∧
      getFlag f .cf = (if k = 0 then cfIn else v.testBit (k - 1)) ∧
      getFlag f .of = (if c = 1 then v.testBit (N - 1) ^^ r.testBit (N - 1)
        else ofSingle Config.chosen w .rcr (operand w value) c s.flagsIn) ∧
      OnlyWrites [.cf, .of] s.flagsIn f

/-- Section 4 of 43_carry_rotates.md (above N the spec's own extension): rotating the ring one way and then back by the
same raw count restores the operand and CF, in both orders, for every choice of the open parameters. -/
def Obligations.CarryRotatesUndoEachOther : Prop :=
  ∀ (p : Config) (w : Width) (value : Word) (n : Nat) (f : FlagsWord),
    let left := rclOutputs p w value n f
    let back := rcrOutputs p w left.result n left.flagsOut
    let right := rcrOutputs p w value n f
    let again := rclOutputs p w right.result n right.flagsOut
    (back.result.toNat = masked w value ∧ getFlag back.flagsOut .cf = getFlag f .cf) ∧
      (again.result.toNat = masked w value ∧ getFlag again.flagsOut .cf = getFlag f .cf)

/-! ### Double shifts (44_double_shift.md) -/

/-- Section 2 of 44_double_shift.md: SHLD at counts from 1 to N. The closed forms for `c < N` and `c = N` are the spec's
inference from the shifted pair. The selector is the spec's own choice (D5, D18): log entry 2, PRESUMED. -/
def Obligations.ShldResultAndFlags : Prop :=
  ∀ (w : Width) (destination source : Word) (n : Nat) (s : State),
    1 ≤ effectiveCount w n → effectiveCount w n ≤ w.bits →
    let N := w.bits
    let d := masked w destination
    let sv := masked w source
    let c := effectiveCount w n
    decodeLine (.evald (w.code ++ 0#1) destination source n) = .ok (.shld w destination source n) ∧
    ∃ t : State, exec (.shld w destination source n) s = .next t ∧
      let r := (t.resultOf s.active).toNat
      let f := t.flagsOf s.active
      r = ((((d <<< N) ||| sv) <<< c) % 2 ^ (2 * N)) >>> N ∧
      (c < N → r = ((d <<< c) ||| (sv >>> (N - c))) &&& valueMask w) ∧
      (c = N → r = sv) ∧
      getFlag f .cf = d.testBit (N - c) ∧
      getFlag f .of = (if c = 1 then d.testBit (N - 1) ^^ r.testBit (N - 1)
        else ofDouble Config.chosen w false (operand w destination) (operand w source) c s.flagsIn) ∧
      SzpOf f r N ∧ OnlyWrites [.cf, .of, .zf, .sf, .pf] s.flagsIn f

/-- Section 3 of 44_double_shift.md: SHRD at counts from 1 to N. The closed forms for `c < N` and `c = N` are the spec's
inference from the shifted pair. The selector is the spec's own choice (D5, D18): log entry 2, PRESUMED. -/
def Obligations.ShrdResultAndFlags : Prop :=
  ∀ (w : Width) (destination source : Word) (n : Nat) (s : State),
    1 ≤ effectiveCount w n → effectiveCount w n ≤ w.bits →
    let N := w.bits
    let d := masked w destination
    let sv := masked w source
    let c := effectiveCount w n
    decodeLine (.evald (w.code ++ 1#1) destination source n) = .ok (.shrd w destination source n) ∧
    ∃ t : State, exec (.shrd w destination source n) s = .next t ∧
      let r := (t.resultOf s.active).toNat
      let f := t.flagsOf s.active
      r = (((sv <<< N) ||| d) >>> c) % 2 ^ N ∧
      (c < N → r = ((d >>> c) ||| (sv <<< (N - c))) &&& valueMask w) ∧
      (c = N → r = sv) ∧
      getFlag f .cf = d.testBit (c - 1) ∧
      getFlag f .of = (if c = 1 then d.testBit (N - 1) ^^ r.testBit (N - 1)
        else ofDouble Config.chosen w true (operand w destination) (operand w source) c s.flagsIn) ∧
      SzpOf f r N ∧ OnlyWrites [.cf, .of, .zf, .sf, .pf] s.flagsIn f

/-- Section 4 of 44_double_shift.md (D9, log entry 11): above the width SHLD and SHRD still complete, with the result
and CF of the open parameter `DSHIFT_OVERCOUNT`, masked, ZF, SF and PF from that result, and OF open. -/
def Obligations.DoubleShiftsAboveTheWidthComplete : Prop :=
  ∀ (w : Width) (destination source : Word) (n : Nat) (s : State) (right : Bool), w.bits < effectiveCount w n →
    let c := effectiveCount w n
    let d := container (operand w destination)
    let sv := container (operand w source)
    let o := Config.chosen.dshiftOvercount w right d sv c
    ∃ t : State, exec (doubleInstr right w destination source n) s = .next t ∧
      let r := (t.resultOf s.active).toNat
      let f := t.flagsOf s.active
      r = masked w o.1 ∧ getFlag f .cf = o.2 ∧
      getFlag f .of = ofDouble Config.chosen w right (operand w destination) (operand w source) c s.flagsIn ∧
      SzpOf f r w.bits ∧ OnlyWrites [.cf, .of, .zf, .sf, .pf] s.flagsIn f

/-- Section 4 of 44_double_shift.md: what the default `zero_fill` gives above the width, for the choices of the open
parameters that take it (D9, log entry 11; the machine does not). -/
def Obligations.ZeroFillAboveTheWidth : Prop :=
  ∀ (p : Config) (w : Width) (destination source : Word) (n : Nat) (f : FlagsWord),
    p.dshiftOvercount = zeroFill → w.bits < effectiveCount w n →
    let N := w.bits
    let c := effectiveCount w n
    let sv := masked w source
    let left := shldOutputs p w destination source n f
    let right := shrdOutputs p w destination source n f
    left.result.toNat = (if c < 2 * N then (sv <<< (c - N)) &&& valueMask w else 0) ∧
      getFlag left.flagsOut .cf = (if c ≤ 2 * N then sv.testBit (2 * N - c) else false) ∧
      right.result.toNat = (if c < 2 * N then sv >>> (c - N) else 0) ∧
      getFlag right.flagsOut .cf = (if c ≤ 2 * N then sv.testBit (c - 1 - N) else false)

/-- Section 4 of 44_double_shift.md: under `zero_fill` a double shift by any effective count is that many one-bit steps
in which the destination takes one bit from the source and the source takes a zero, and CF is the last bit to leave
the destination (D9, log entry 11). -/
def Obligations.DoubleShiftsAreOneBitSteps : Prop :=
  ∀ (p : Config) (w : Width) (destination source : Word) (n : Nat) (f : FlagsWord),
    p.dshiftOvercount = zeroFill → 1 ≤ effectiveCount w n →
    let pair := (operand w destination, operand w source)
    let c := effectiveCount w n
    let left := shldOutputs p w destination source n f
    let right := shrdOutputs p w destination source n f
    operand w left.result = (pairStepLeft^[c] pair).1 ∧
      getFlag left.flagsOut .cf = (pairStepLeft^[c - 1] pair).1.msb ∧
      operand w right.result = (pairStepRight^[c] pair).1 ∧
      getFlag right.flagsOut .cf = (pairStepRight^[c - 1] pair).1.getLsbD 0

/-- R126: OF of a double shift at effective count 1 is the sign change of the destination, in both directions. -/
def Obligations.DoubleShiftOverflowAtCountOne : Prop :=
  ∀ (w : Width) (destination source : Word) (n : Nat) (s : State) (right : Bool), effectiveCount w n = 1 →
    ∃ t : State, exec (doubleInstr right w destination source n) s = .next t ∧
      getFlag (t.flagsOf s.active) .of =
        ((masked w destination).testBit (w.bits - 1) ^^ (t.resultOf s.active).toNat.testBit (w.bits - 1)) ∧
      (getFlag (t.flagsOf s.active) .of = true ↔
        (masked w destination).testBit (w.bits - 1) ≠ (t.resultOf s.active).toNat.testBit (w.bits - 1))

/-- Section 5 of 44_double_shift.md (the spec's inference): with equal operands and a count below the width, SHLD gives
the result of ROL and SHRD that of ROR. For every choice of the open parameters. -/
def Obligations.EqualOperandsRotate : Prop :=
  ∀ (p : Config) (w : Width) (x : Word) (n : Nat) (f : FlagsWord), effectiveCount w n < w.bits →
    (shldOutputs p w x x n f).result = (rolOutputs p w x n f).result ∧
      (shrdOutputs p w x x n f).result = (rorOutputs p w x n f).result

/-- Sections 2 and 3 of 44_double_shift.md (the spec's corner cases): with a zero source and a count up to the width,
SHLD is SHL and SHRD is SHR, in result, CF, ZF, SF, PF, and in OF at count 1. For every choice of the open
parameters. -/
def Obligations.ZeroSourceIsASingleShift : Prop :=
  ∀ (p : Config) (w : Width) (x : Word) (n : Nat) (f : FlagsWord), effectiveCount w n ≤ w.bits →
    let l := shldOutputs p w x 0 n f
    let l' := shlOutputs p w x n f
    let r := shrdOutputs p w x 0 n f
    let r' := shrOutputs p w x n f
    l.result = l'.result ∧ r.result = r'.result ∧
      ∀ y : Flag, (y = .of → effectiveCount w n ≤ 1) →
        getFlag l.flagsOut y = getFlag l'.flagsOut y ∧ getFlag r.flagsOut y = getFlag r'.flagsOut y
end

