-- ==== Sys2Proof/Laws/Encoding.lean ====
section
/-!
SUPPORT. The small lemmas of selectors: what the selector of each width and operation decodes to, and that every
selector is one.
-/

namespace Sys2Proof

theorem decodeLine_evalSel (w : Width) (op : Operation) (value : Word) (n : Nat) :
    decodeLine (.eval (evalSel w op) value n) = .ok (singleInstr op w value n) := by
  cases w <;> cases op <;> rfl

theorem decodeLine_evaldSel (w : Width) (right : Bool) (destination source : Word) (n : Nat) :
    decodeLine (.evald (evaldSel w right) destination source n) = .ok (doubleInstr right w destination source n) := by
  cases w <;> cases right <;> rfl

theorem encode_singleInstr (w : Width) (op : Operation) (value : Word) (n : Nat) :
    encode (singleInstr op w value n) = .eval (evalSel w op) value n := by
  cases op <;> rfl

theorem encode_doubleInstr (w : Width) (right : Bool) (destination source : Word) (n : Nat) :
    encode (doubleInstr right w destination source n) = .evald (evaldSel w right) destination source n := by
  cases right <;> rfl

theorem evalSel_surjective (sel : BitVec 5) : ∃ w op, evalSel w op = sel := by
  have h : ∀ sel : BitVec 5,
      (match Width.ofCode (sel.extractLsb' 3 2).toNat, Operation.ofCode (sel.extractLsb' 0 3).toNat with
        | some w, some op => decide (evalSel w op = sel)
        | _, _ => false) = true := by
    decide
  have := h sel
  split at this
  · exact ⟨_, _, of_decide_eq_true this⟩
  · cases this

theorem evaldSel_surjective (sel : BitVec 3) : ∃ w right, evaldSel w right = sel := by
  have h : ∀ sel : BitVec 3,
      (match Width.ofCode (sel.extractLsb' 1 2).toNat with
        | some w => decide (evaldSel w (sel.getLsbD 0) = sel)
        | none => false) = true := by
    decide
  have := h sel
  split at this
  · exact ⟨_, _, of_decide_eq_true this⟩
  · cases this

end Sys2Proof
end

