-- ==== Sys2Proof/Laws/State.lean ====
section
/-!
SUPPORT. The small lemmas of the state: the store of contexts, and what each named operation leaves in each field.
-/

namespace Sys2Proof.Machine

@[simp] theorem lookupContext_nil (k : Nat) : lookupContext [] k = Context.reset := rfl

theorem lookupContext_dropWhile (l : List (Nat × Context)) (k m : Nat) (h : k < m) :
    lookupContext (l.dropWhile (fun e => decide (e.1 ≤ k))) m = lookupContext l m := by
  induction l with
  | nil => rfl
  | cons e rest ih =>
    rw [List.dropWhile_cons]
    split
    · next hle =>
      have hle : e.1 ≤ k := by simpa using hle
      rw [ih, lookupContext, if_neg (by omega), if_neg (by omega)]
    · rfl

theorem lookupContext_dropWhile_le (l : List (Nat × Context)) (k m : Nat) (h : m ≤ k) :
    lookupContext (l.dropWhile (fun e => decide (e.1 ≤ k))) m = Context.reset := by
  induction l with
  | nil => rfl
  | cons e rest ih =>
    rw [List.dropWhile_cons]
    split
    · exact ih
    · next hle =>
      have hle : ¬ e.1 ≤ k := by simpa using hle
      rw [lookupContext, if_pos (by omega)]

/-- A store reads back what was stored. -/
@[simp] theorem lookupContext_storeContext_same (l : List (Nat × Context)) (k : Nat) (c : Context) :
    lookupContext (storeContext l k c) k = c := by
  induction l with
  | nil => by_cases h : c = Context.reset <;> simp [storeContext, lookupContext, h]
  | cons e rest ih =>
    by_cases h1 : k < e.1
    · by_cases hc : c = Context.reset <;> simp [storeContext, lookupContext, h1, hc]
    · by_cases h2 : k = e.1
      · by_cases hc : c = Context.reset
        · simp [storeContext, h2, hc, lookupContext_dropWhile_le]
        · simp [storeContext, h2, hc, lookupContext]
      · simp [storeContext, lookupContext, h1, h2, ih]

/-- A store leaves every other context alone. -/
theorem lookupContext_storeContext_ne (l : List (Nat × Context)) {k m : Nat} (c : Context) (h : m ≠ k) :
    lookupContext (storeContext l k c) m = lookupContext l m := by
  induction l with
  | nil =>
    by_cases hc : c = Context.reset <;> simp [storeContext, lookupContext, hc, h]
  | cons e rest ih =>
    by_cases h1 : k < e.1
    · by_cases hc : c = Context.reset
      · simp [storeContext, h1, hc]
      · simp only [storeContext, h1, hc, if_true, if_false, lookupContext, h]
        split
        · rw [if_pos (by omega)]
        · rfl
    · by_cases h2 : k = e.1
      · by_cases hc : c = Context.reset
        · subst hc
          simp only [storeContext, if_neg h1, if_pos h2, if_true]
          by_cases hm : m < k
          · rw [lookupContext_dropWhile_le _ _ _ (by omega), lookupContext, if_pos (by omega)]
          · rw [lookupContext_dropWhile _ _ _ (by omega), lookupContext, if_neg (by omega), if_neg (by omega)]
        · simp [storeContext, h2, hc, lookupContext, h2 ▸ h]
      · simp [storeContext, lookupContext, h1, h2, ih]

theorem mem_storeContext {l : List (Nat × Context)} {k : Nat} {c : Context} {e : Nat × Context}
    (h : e ∈ storeContext l k c) : e ∈ l ∨ (e = (k, c) ∧ c ≠ Context.reset) := by
  induction l with
  | nil =>
    by_cases hc : c = Context.reset <;> simp_all [storeContext]
  | cons d rest ih =>
    by_cases h1 : k < d.1
    · by_cases hc : c = Context.reset
      · simp_all [storeContext]
      · simp only [storeContext, h1, hc, if_true, if_false, List.mem_cons] at h ⊢
        tauto
    · by_cases h2 : k = d.1
      · by_cases hc : c = Context.reset
        · simp only [storeContext, if_neg h1, if_pos h2, if_pos hc] at h
          exact .inl (List.mem_cons_of_mem _ ((List.dropWhile_sublist _).mem h))
        · simp only [storeContext, if_neg h1, if_pos h2, if_neg hc, List.mem_cons] at h ⊢
          tauto
      · simp only [storeContext, if_neg h1, if_neg h2, List.mem_cons] at h ⊢
        rcases h with h | h
        · exact .inl (.inl h)
        · rcases ih h with h | h
          · exact .inl (.inr h)
          · exact .inr h

/-- Storing keeps the canonical form. -/
theorem contextsCanonical_storeContext {l : List (Nat × Context)} (k : Nat) (c : Context)
    (h : contextsCanonical l) : contextsCanonical (storeContext l k c) := by
  refine ⟨?_, fun e he => ?_⟩
  · obtain ⟨hp, -⟩ := h
    induction l with
    | nil => by_cases hc : c = Context.reset <;> simp [storeContext, hc]
    | cons d rest ih =>
      obtain ⟨hd, hr⟩ := List.pairwise_cons.mp hp
      by_cases h1 : k < d.1
      · by_cases hc : c = Context.reset
        · simpa [storeContext, h1, hc] using hp
        · simp only [storeContext, h1, hc, if_true, if_false]
          refine List.pairwise_cons.mpr ⟨fun a ha => ?_, hp⟩
          rcases List.mem_cons.mp ha with rfl | ha
          · exact h1
          · exact lt_trans h1 (hd a ha)
      · by_cases h2 : k = d.1
        · by_cases hc : c = Context.reset
          · simp only [storeContext, if_neg h1, if_pos h2, if_pos hc]
            exact hr.sublist (List.dropWhile_sublist _)
          · simp only [storeContext, if_neg h1, if_pos h2, if_neg hc]
            exact List.pairwise_cons.mpr ⟨fun a ha => h2 ▸ hd a ha, hr⟩
        · simp only [storeContext, if_neg h1, if_neg h2]
          refine List.pairwise_cons.mpr ⟨fun a ha => ?_, ih hr⟩
          rcases mem_storeContext ha with ha | ⟨rfl, -⟩
          · exact hd a ha
          · show d.1 < k
            omega
  · rcases mem_storeContext he with he | ⟨rfl, hc⟩
    · exact h.2 e he
    · exact hc

@[simp] theorem deliver_rounds (s : State) (o : Outputs) : (s.deliver o).rounds = s.rounds := rfl
@[simp] theorem deliver_active (s : State) (o : Outputs) : (s.deliver o).active = s.active := rfl
@[simp] theorem deliver_contexts (s : State) (o : Outputs) :
    (s.deliver o).contexts =
      storeContext s.contexts s.active { flags := o.flagsOut, result := o.result } := rfl
@[simp] theorem activate_rounds (s : State) (k : Nat) : (s.activate k).rounds = s.rounds := rfl
@[simp] theorem activate_active (s : State) (k : Nat) : (s.activate k).active = k := rfl
@[simp] theorem activate_contexts (s : State) (k : Nat) : (s.activate k).contexts = s.contexts := rfl
@[simp] theorem activate_context (s : State) (k m : Nat) : (s.activate k).context m = s.context m := rfl
@[simp] theorem activate_flagsIn (s : State) (k : Nat) : (s.activate k).flagsIn = s.flagsOf k := rfl
@[simp] theorem present_active (s : State) (r : Request) : (s.present r).active = s.active := rfl
@[simp] theorem present_contexts (s : State) (r : Request) : (s.present r).contexts = s.contexts := rfl
@[simp] theorem present_rounds (s : State) (r : Request) :
    (s.present r).rounds = [{ context := s.active, request := r }] :: s.rounds := rfl

/-- The context that issued the request holds its outputs. -/
@[simp] theorem deliver_context_active (s : State) (o : Outputs) :
    (s.deliver o).context s.active = { flags := o.flagsOut, result := o.result } :=
  lookupContext_storeContext_same _ _ _

@[simp] theorem deliver_resultOf_active (s : State) (o : Outputs) : (s.deliver o).resultOf s.active = o.result := by
  simp [State.resultOf]

@[simp] theorem deliver_flagsOf_active (s : State) (o : Outputs) : (s.deliver o).flagsOf s.active = o.flagsOut := by
  simp [State.flagsOf]

/-- Every other context is as it was. -/
theorem deliver_context_ne (s : State) (o : Outputs) {k : Nat} (h : k ≠ s.active) :
    (s.deliver o).context k = s.context k :=
  lookupContext_storeContext_ne _ _ h

/-- Delivering outputs keeps the invariant. -/
theorem deliver_Inv {s : State} (o : Outputs) (h : s.Inv) : (s.deliver o).Inv :=
  contextsCanonical_storeContext _ _ h

end Sys2Proof.Machine
end

