-- ==== Sys2Proof/Laws/Machine.lean ====
section
/-!
SUPPORT. One lemma per shared operation of the machine, which later proofs cite instead of unfolding it: what `exec`,
one issue, one round and one step can do.
-/

namespace Sys2Proof.Machine

/-- Every checked request ends with its outputs delivered. -/
theorem exec_eq (i : Instr) (s : State) :
    exec i s = .next (s.deliver (outputs Config.chosen i s.flagsIn)) := by
  cases i <;> rfl

theorem exec_next {i : Instr} {s t : State} (h : exec i s = .next t) :
    t = s.deliver (outputs Config.chosen i s.flagsIn) := by
  rw [exec_eq] at h
  exact (Host.Outcome.next.inj h).symm

/-- One issue ends with its outputs delivered to its context, or in the contract violation the check found. -/
theorem evalIssue_eq (issue : Issue) (s : State) :
    evalIssue issue s =
      match evaluateRequest Config.chosen issue.request (s.flagsOf issue.context) with
      | .ok o => .next ((s.activate issue.context).deliver o)
      | .error reason => .fault (.contractViolation reason) := by
  unfold evalIssue evaluateRequest
  cases decode issue.request with
  | ok i => simp [exec_eq]
  | error reason => rfl

theorem decode_ok_iff_legal (r : Request) : (∃ i, decode r = .ok i) ↔ r.legal = true := by
  have hw : ∀ n : Nat, (∃ w, Width.ofCode n = some w) ↔ n < 4 := by
    intro n
    match n with
    | 0 | 1 | 2 | 3 => simp [Width.ofCode]
    | n + 4 => simp [Width.ofCode]
  have ho : ∀ n : Nat, (∃ w, Operation.ofCode n = some w) ↔ n < 8 := by
    intro n
    match n with
    | 0 | 1 | 2 | 3 | 4 | 5 | 6 | 7 => simp [Operation.ofCode]
    | n + 8 => simp [Operation.ofCode]
  cases r with
  | evaluate width op value n =>
    simp only [decode, Request.legal, Bool.and_eq_true, decide_eq_true_eq, ← hw, ← ho]
    cases Width.ofCode width <;> cases Operation.ofCode op <;> simp
  | evaluateDouble width d s n right =>
    simp only [decode, Request.legal, decide_eq_true_eq, ← hw]
    cases Width.ofCode width <;> simp

/-- An issue that answers a next state was legal, and its outputs are delivered to its own context. -/
theorem evalIssue_next {issue : Issue} {s t : State} (h : evalIssue issue s = .next t) :
    ∃ i, decode issue.request = .ok i ∧
      t = (s.activate issue.context).deliver (outputs Config.chosen i (s.flagsOf issue.context)) := by
  unfold evalIssue at h
  cases hd : decode issue.request with
  | ok i =>
    rw [hd] at h
    exact ⟨i, rfl, exec_next h⟩
  | error reason =>
    rw [hd] at h
    cases h

theorem evalIssue_not_refused (issue : Issue) (s : State) (r : Refusal) : evalIssue issue s ≠ .refused r := by
  rw [evalIssue_eq]
  cases evaluateRequest Config.chosen issue.request (s.flagsOf issue.context) <;> simp

/-- A legal issue answers a next state. -/
theorem evalIssue_of_legal {issue : Issue} (s : State) (h : issue.request.legal = true) :
    ∃ t, evalIssue issue s = .next t := by
  obtain ⟨i, hi⟩ := (decode_ok_iff_legal _).mpr h
  exact ⟨_, by simp only [evalIssue, hi]; exact exec_eq _ _⟩

@[simp] theorem evalRound_nil (s : State) : evalRound [] s = .next s := rfl

/-- A round that answers a next state evaluated its first issue and then the rest. -/
theorem evalRound_cons_next {issue : Issue} {rest : List Issue} {s t : State}
    (h : evalRound (issue :: rest) s = .next t) :
    ∃ u, evalIssue issue s = .next u ∧ evalRound rest u = .next t := by
  unfold evalRound at h
  cases hi : evalIssue issue s with
  | next u => exact ⟨u, rfl, by simpa [hi] using h⟩
  | fault r => simp [hi] at h
  | refused r => simp [hi] at h

theorem evalRound_cons_of_next {issue : Issue} {rest : List Issue} {s u : State}
    (h : evalIssue issue s = .next u) : evalRound (issue :: rest) s = evalRound rest u := by
  simp [evalRound, h]

/-- What one step can do: nothing is presented, or the next round is refused, or it is evaluated. -/
theorem step_eq (s : State) :
    step s =
      match s.rounds with
      | [] => .next s
      | round :: rest =>
        if sharesFlagsWord round then .refused .flagsWordShared else evalRound round { s with rounds := rest } := by
  unfold step State.nextRound stepRound
  cases s.rounds <;> rfl

/-- A step that answers a next state: nothing presented, or a conflict-free round evaluated. -/
theorem step_next {s t : State} (h : step s = .next t) :
    (s.rounds = [] ∧ t = s) ∨
      ∃ round rest, s.rounds = round :: rest ∧ sharesFlagsWord round = false ∧
        evalRound round { s with rounds := rest } = .next t := by
  rw [step_eq] at h
  cases hr : s.rounds with
  | nil =>
    rw [hr] at h
    exact .inl ⟨rfl, (Host.Outcome.next.inj h).symm⟩
  | cons round rest =>
    rw [hr] at h
    dsimp only at h
    split at h
    · cases h
    · next hs => exact .inr ⟨round, rest, rfl, by simpa using hs, h⟩

/-- Induction over a round packaged once: what every issue keeps, a round keeps. -/
theorem evalRound_induction {P : State → Prop} (hi : ∀ issue s t, evalIssue issue s = .next t → P s → P t) :
    ∀ (round : List Issue) (s t : State), evalRound round s = .next t → P s → P t
  | [], s, t, h, hp => by
    cases h
    exact hp
  | issue :: rest, s, t, h, hp => by
    obtain ⟨u, hu, ht⟩ := evalRound_cons_next h
    exact evalRound_induction hi rest u t ht (hi issue s u hu hp)

@[simp] theorem run_zero (s : State) : run 0 s = .next s := rfl

theorem run_succ_of_next {s t : State} (m : Nat) (h : step s = .next t) : run (m + 1) s = run m t := by
  simp only [run, h]

theorem run_succ_of_fault {s : State} {f : Fault} (m : Nat) (h : step s = .fault f) : run (m + 1) s = .fault f := by
  simp only [run, h]

theorem run_succ_of_refused {s : State} {q : Refusal} (m : Nat) (h : step s = .refused q) :
    run (m + 1) s = .refused q := by
  simp only [run, h]

theorem run_eq_core_run : ∀ (m : Nat) (s : State), run m s = Host.Core.run core m s
  | 0, _ => rfl
  | m + 1, s => by
    have h : core.step s = step s := rfl
    cases hs : step s with
    | next t =>
      rw [run_succ_of_next m hs, run_eq_core_run m t]
      simp only [Host.Core.run, h, hs]
      rfl
    | fault f =>
      rw [run_succ_of_fault m hs]
      simp only [Host.Core.run, h, hs]
      rfl
    | refused q =>
      rw [run_succ_of_refused m hs]
      simp only [Host.Core.run, h, hs]
      rfl

@[simp] theorem evaluateWith_zero {w : Width} {x : Word} {n : Nat} {f : FlagsWord}
    {rule : BitVec w.bits → Nat → BitVec w.bits × FlagsWord} (h : effectiveCount w n = 0) :
    evaluateWith w x n f rule = { result := container (operand w x), flagsOut := f } := by
  simp [evaluateWith, h]

theorem evaluateWith_pos {w : Width} {x : Word} {n : Nat} {f : FlagsWord}
    {rule : BitVec w.bits → Nat → BitVec w.bits × FlagsWord} (h : 1 ≤ effectiveCount w n) :
    evaluateWith w x n f rule =
      { result := container (rule (operand w x) (effectiveCount w n)).1
        flagsOut := (rule (operand w x) (effectiveCount w n)).2 } := by
  have : effectiveCount w n ≠ 0 := by omega
  simp [evaluateWith, this]

end Sys2Proof.Machine
end

