-- ==== Sys2Proof/Laws/Flags.lean ====
section
/-!
SUPPORT. The small lemmas of operands and of the flags word: reading a field after a write, and the bits a write leaves
alone.
-/

namespace Sys2Proof.Machine

theorem bits_le_64 (w : Width) : w.bits ≤ 64 := by cases w <;> decide

theorem bits_pos (w : Width) : 0 < w.bits := by cases w <;> decide

theorem eight_le_bits (w : Width) : 8 ≤ w.bits := by cases w <;> decide

theorem valueMask_eq (w : Width) : valueMask w = 2 ^ w.bits - 1 := by simp [valueMask, Nat.one_shiftLeft]

/-- Masking is taking the remainder by `2^N`. -/
theorem masked_eq (w : Width) (x : Word) : masked w x = x.toNat % 2 ^ w.bits := by
  simp [masked, valueMask_eq, Nat.and_two_pow_sub_one_eq_mod]

@[simp] theorem operand_toNat (w : Width) (x : Word) : (operand w x).toNat = masked w x := by
  simp [operand, masked_eq]

theorem container_toNat {n : Nat} (h : n ≤ 64) (r : BitVec n) : (container r).toNat = r.toNat := by
  have : r.toNat < 2 ^ 64 := lt_of_lt_of_le r.isLt (Nat.pow_le_pow_right (by decide) h)
  rw [container, BitVec.toNat_setWidth, Nat.mod_eq_of_lt this]

@[simp] theorem operand_container (w : Width) (r : BitVec w.bits) : operand w (container r) = r := by
  have : (container r).toNat % 2 ^ w.bits = r.toNat := by
    rw [container_toNat (bits_le_64 w), Nat.mod_eq_of_lt r.isLt]
  exact BitVec.eq_of_toNat_eq (by rw [operand, BitVec.toNat_setWidth, this])

/-- The effective count is the raw count modulo 64 at the 64-bit width and modulo 32 elsewhere. -/
theorem effectiveCount_eq (w : Width) (n : Nat) : effectiveCount w n = n % (if w.bits = 64 then 64 else 32) := by
  have h5 := Nat.and_two_pow_sub_one_eq_mod n 5
  have h6 := Nat.and_two_pow_sub_one_eq_mod n 6
  cases w <;> simpa [effectiveCount, countMask, Width.bits] using by first | exact h5 | exact h6

theorem flagPos_injective : ∀ x y : Flag, flagPos x = flagPos y → x = y := by
  intro x y
  cases x <;> cases y <;> decide

theorem flagPos_lt (x : Flag) : flagPos x < 32 := by cases x <;> decide

/-- Every bit after a write of one field. -/
theorem getLsbD_setFlag (f : FlagsWord) (x : Flag) (b : Bool) (i : Nat) :
    (setFlag f x b).getLsbD i = if i = flagPos x then b else f.getLsbD i := by
  have hx := flagPos_lt x
  by_cases hi : i < 32
  · by_cases h : i = flagPos x
    · subst h
      cases b <;> simp [setFlag, hi]
    · have hne : i < flagPos x ∨ i - flagPos x ≠ 0 := by omega
      cases b <;> simp only [setFlag, Bool.false_eq_true, if_false, if_true, h] <;>
        rcases hne with hlt | hne <;> simp [*]
  · have : i ≠ flagPos x := by omega
    rw [if_neg this, BitVec.getLsbD_of_ge _ _ (by omega), BitVec.getLsbD_of_ge _ _ (by omega)]

@[simp] theorem getFlag_setFlag_same (f : FlagsWord) (x : Flag) (b : Bool) : getFlag (setFlag f x b) x = b := by
  simp [getFlag, getLsbD_setFlag]

theorem getFlag_setFlag_ne (f : FlagsWord) {x y : Flag} (b : Bool) (h : x ≠ y) :
    getFlag (setFlag f x b) y = getFlag f y := by
  have : flagPos y ≠ flagPos x := fun e => h (flagPos_injective _ _ e.symm)
  simp [getFlag, getLsbD_setFlag, this]

/-- The fields of the flags a rotate writes. -/
@[simp] theorem getFlag_rotateFlags (f : FlagsWord) (cf of : Bool) (x : Flag) :
    getFlag (rotateFlags f cf of) x = match x with
      | .cf => cf
      | .of => of
      | x => getFlag f x := by
  cases x <;> simp [rotateFlags, getFlag_setFlag_ne]

/-- The fields of the flags a shift writes. -/
@[simp] theorem getFlag_shiftFlags {n : Nat} (f : FlagsWord) (cf of : Bool) (r : BitVec n) (x : Flag) :
    getFlag (shiftFlags f cf of r) x = match x with
      | .cf => cf
      | .of => of
      | .zf => r == 0#n
      | .sf => r.msb
      | .pf => parity8 r
      | .af => getFlag f .af := by
  cases x <;> simp [shiftFlags, setSZP, getFlag_setFlag_ne]

theorem onlyWrites_refl (l : List Flag) (f : FlagsWord) : OnlyWrites l f f := fun _ _ => rfl

theorem onlyWrites_rotateFlags (f : FlagsWord) (cf of : Bool) : OnlyWrites [.cf, .of] f (rotateFlags f cf of) := by
  intro b hb
  simp only [List.mem_cons, List.not_mem_nil, or_false, forall_eq_or_imp, forall_eq] at hb
  obtain ⟨h1, h2⟩ := hb
  simp [rotateFlags, getLsbD_setFlag, Ne.symm h1, Ne.symm h2]

theorem onlyWrites_shiftFlags {n : Nat} (f : FlagsWord) (cf of : Bool) (r : BitVec n) :
    OnlyWrites [.cf, .of, .zf, .sf, .pf] f (shiftFlags f cf of r) := by
  intro b hb
  simp only [List.mem_cons, List.not_mem_nil, or_false, forall_eq_or_imp, forall_eq] at hb
  obtain ⟨h1, h2, h3, h4, h5⟩ := hb
  simp [shiftFlags, setSZP, rotateFlags, getLsbD_setFlag, Ne.symm h1, Ne.symm h2, Ne.symm h3, Ne.symm h4,
    Ne.symm h5]

/-- `SetSZP` said over numbers. -/
theorem szpOf_shiftFlags {n : Nat} (f : FlagsWord) (cf of : Bool) (r : BitVec n) :
    SzpOf (shiftFlags f cf of r) r.toNat n := by
  refine ⟨?_, ?_, ?_⟩
  · rw [getFlag_shiftFlags]
    rw [Bool.eq_iff_iff, beq_iff_eq, decide_eq_true_eq, ← BitVec.toNat_inj, BitVec.toNat_ofNat, Nat.zero_mod]
  · rw [getFlag_shiftFlags]
    simp [BitVec.msb_eq_getLsbD_last, BitVec.getLsbD]
  · rw [getFlag_shiftFlags]
    simp only [parity8, BitVec.getLsbD, List.countP_eq_length_filter]
    rw [Bool.eq_iff_iff]
    simp

end Sys2Proof.Machine
end

