-- ==== Sys2Proof/Laws/PerInstr.lean ====
section
/-!
SUPPORT. Per instruction: its encoding stands in its own row of spec/opcode_table.json. A row is a format, a mask and a
match over the selector (R41, R42, R52), and the width code fills the bits above the mask (R15).
-/

namespace Sys2Proof.Laws.TableRow

/-- The selector of a line of format `EVAL`, as a number; none in a line of format `EVALD`. -/
def evalSelector : Line → Option Nat
  | .eval sel _ _ => some sel.toNat
  | .evald _ _ _ _ => none

/-- The selector of a line of format `EVALD`, as a number; none in a line of format `EVAL`. -/
def evaldSelector : Line → Option Nat
  | .eval _ _ _ => none
  | .evald sel _ _ _ => some sel.toNat

/-- A row of format `EVAL` with mask `0x07`: the selector carries the row's match and the width's code. -/
def EvalRow (matched : Nat) (w : Width) (l : Line) : Prop :=
  ∃ sel : Nat, evalSelector l = some sel ∧ sel &&& 0x07 = matched ∧ sel >>> 3 = w.code.toNat

/-- A row of format `EVALD` with mask `0x1`: the selector carries the row's match and the width's code. -/
def EvaldRow (matched : Nat) (w : Width) (l : Line) : Prop :=
  ∃ sel : Nat, evaldSelector l = some sel ∧ sel &&& 0x1 = matched ∧ sel >>> 1 = w.code.toNat

/-- The encoding of an instruction stands in its row of the opcode table. -/
def Statement : Instr → Prop
  | .rol w value n => EvalRow 0 w (encode (.rol w value n))
  | .ror w value n => EvalRow 1 w (encode (.ror w value n))
  | .rcl w value n => EvalRow 2 w (encode (.rcl w value n))
  | .rcr w value n => EvalRow 3 w (encode (.rcr w value n))
  | .shl w value n => EvalRow 4 w (encode (.shl w value n))
  | .shr w value n => EvalRow 5 w (encode (.shr w value n))
  | .sal w value n => EvalRow 6 w (encode (.sal w value n))
  | .sar w value n => EvalRow 7 w (encode (.sar w value n))
  | .shld w d s n => EvaldRow 0 w (encode (.shld w d s n))
  | .shrd w d s n => EvaldRow 1 w (encode (.shrd w d s n))

theorem rol (w : Width) (value : Word) (n : Nat) : Statement (.rol w value n) := by
  cases w <;> exact ⟨_, rfl, rfl, rfl⟩

theorem ror (w : Width) (value : Word) (n : Nat) : Statement (.ror w value n) := by
  cases w <;> exact ⟨_, rfl, rfl, rfl⟩

theorem rcl (w : Width) (value : Word) (n : Nat) : Statement (.rcl w value n) := by
  cases w <;> exact ⟨_, rfl, rfl, rfl⟩

theorem rcr (w : Width) (value : Word) (n : Nat) : Statement (.rcr w value n) := by
  cases w <;> exact ⟨_, rfl, rfl, rfl⟩

theorem shl (w : Width) (value : Word) (n : Nat) : Statement (.shl w value n) := by
  cases w <;> exact ⟨_, rfl, rfl, rfl⟩

theorem shr (w : Width) (value : Word) (n : Nat) : Statement (.shr w value n) := by
  cases w <;> exact ⟨_, rfl, rfl, rfl⟩

theorem sal (w : Width) (value : Word) (n : Nat) : Statement (.sal w value n) := by
  cases w <;> exact ⟨_, rfl, rfl, rfl⟩

theorem sar (w : Width) (value : Word) (n : Nat) : Statement (.sar w value n) := by
  cases w <;> exact ⟨_, rfl, rfl, rfl⟩

theorem shld (w : Width) (d s : Word) (n : Nat) : Statement (.shld w d s n) := by
  cases w <;> exact ⟨_, rfl, rfl, rfl⟩

theorem shrd (w : Width) (d s : Word) (n : Nat) : Statement (.shrd w d s n) := by
  cases w <;> exact ⟨_, rfl, rfl, rfl⟩

end Sys2Proof.Laws.TableRow
end

