-- ==== Sys2Proof/Tests/Slice0.lean ====
section
/-!
SUPPORT. Tests. Expected values are those of spec/95_test_vectors.md (the section stands at each test), or written out
by hand from the encoding patterns of spec/30_encoding.md and the formulas the test names. The witnesses at the end
show, for each obligation with hypotheses, that they can be met.
-/

namespace Sys2Proof.Tests

open Sys2Proof.Machine

/-! ### Well-formedness: an operand above its width is refused, in every constructor -/

theorem test_wf_operand_above_width_refused :
    (Instr.rol .w8 0x100 1).wf = false ∧ (Instr.ror .w8 0x100 1).wf = false ∧ (Instr.rcl .w16 0x10000 1).wf = false ∧
    (Instr.rcr .w16 0x10000 1).wf = false ∧ (Instr.shl .w32 0x100000000 1).wf = false ∧
    (Instr.shr .w32 0x100000000 1).wf = false ∧ (Instr.sal .w8 0x1FF 1).wf = false ∧
    (Instr.sar .w8 0x180 1).wf = false := by decide

theorem test_wf_double_shift_operands_checked :
    (Instr.shld .w8 0x100 0x01 1).wf = false ∧ (Instr.shld .w8 0x01 0x100 1).wf = false ∧
    (Instr.shrd .w16 0x10000 0x01 1).wf = false ∧ (Instr.shrd .w16 0x01 0x10000 1).wf = false := by decide

theorem test_wf_accepts_the_largest_operands :
    (Instr.shl .w8 0xFF 1).wf = true ∧ (Instr.shrd .w64 0xFFFFFFFFFFFFFFFF 0xFFFFFFFFFFFFFFFF 1).wf = true := by
  decide

/-! ### Decoding: selectors written out bit by bit, `ww` then `op`, or `ww` then `shiftRight` (30_encoding.md) -/

/-- ROL.8 and ROR.32 of 95_test_vectors.md section 3, programs 4 and 6. -/
theorem test_decode_rotates :
    decodeLine (.eval 0b00000#5 0x02#64 32) = .ok (.rol .w8 0x02#64 32) ∧
    decodeLine (.eval 0b10001#5 0x01#64 1) = .ok (.ror .w32 0x01#64 1) := ⟨rfl, rfl⟩

/-- RCL.8 and RCR.64 of 95_test_vectors.md section 3, programs 5 and 2. -/
theorem test_decode_carry_rotates :
    decodeLine (.eval 0b00010#5 0xA5#64 3) = .ok (.rcl .w8 0xA5#64 3) ∧
    decodeLine (.eval 0b11011#5 0x02#64 1) = .ok (.rcr .w64 0x02#64 1) := ⟨rfl, rfl⟩

/-- SHL.32, SHR.32, SAR.16 of 95_test_vectors.md section 3, programs 4, 3, 4; SAL.16 by its pattern `ww110`. -/
theorem test_decode_shifts :
    decodeLine (.eval 0b10100#5 0x01#64 33) = .ok (.shl .w32 0x01#64 33) ∧
    decodeLine (.eval 0b10101#5 0x01234567#64 8) = .ok (.shr .w32 0x01234567#64 8) ∧
    decodeLine (.eval 0b01110#5 0x03#64 1) = .ok (.sal .w16 0x03#64 1) ∧
    decodeLine (.eval 0b01111#5 0xFFFF#64 1) = .ok (.sar .w16 0xFFFF#64 1) := ⟨rfl, rfl, rfl, rfl⟩

/-- SHRD.32 of 95_test_vectors.md section 3, program 3; SHLD.64 by its pattern `ww0`. -/
theorem test_decode_double_shifts :
    decodeLine (.evald 0b101#3 0x89ABCDEF#64 0x01234567#64 8) = .ok (.shrd .w32 0x89ABCDEF#64 0x01234567#64 8) ∧
    decodeLine (.evald 0b110#3 0x01#64 0x02#64 5) = .ok (.shld .w64 0x01#64 0x02#64 5) := ⟨rfl, rfl⟩

/-- The opcode table's words: `ww000` to `ww111` over 5 bits, `ww0` and `ww1` over 3; a sixth bit is a bad width. -/
theorem test_decodeTableWord :
    decodeTableWord 8 0b11000 = some (.rol .w64 0 0) ∧ decodeTableWord 8 0b01001 = some (.ror .w16 0 0) ∧
    decodeTableWord 5 0b00110 = some (.sal .w8 0 0) ∧ decodeTableWord 3 0b110 = some (.shld .w64 0 0 0) ∧
    decodeTableWord 3 0b011 = some (.shrd .w16 0 0 0) ∧ decodeTableWord 8 0b100000 = none := by decide

/-- The step after `withFetchWord` runs the placed request, as the first after reset. -/
theorem test_withFetchWord_runs :
    step (State.reset.withFetchWord 8 0b00111) = exec (.sar .w8 0 0) State.reset ∧
    step (State.reset.withFetchWord 3 0b001) = exec (.shrd .w8 0 0 0) State.reset := ⟨rfl, rfl⟩

/-! ### Vectors at count 1: one step of one request, whatever the open parameters are -/

/-- Context 0 with the flags word `flags`, and one request of it presented. -/
def before (flags : FlagsWord) (r : Request) : State :=
  { State.reset with
    rounds := [[{ context := 0, request := r }]]
    contexts := storeContext [] 0 { flags := flags, result := 0 } }

/-- The result and the flags word of context 0 after one step; none if the step faults or is refused. -/
def after (s : State) : Option (Word × FlagsWord) :=
  match step s with
  | .next t => some (t.resultOf 0, t.flagsOf 0)
  | .fault _ => none
  | .refused _ => none

/-- Section 2.1: `SHL.8 0x40, 1` with CF set before. -/
theorem test_shl_by_one : after (before 0x0001 (.evaluate 0 4 0x40 1)) = some (0x80, 0x0880) := by decide

/-- Section 2.1: `SAL.8 0x81, 1`. -/
theorem test_sal_by_one : after (before 0x0000 (.evaluate 0 6 0x81 1)) = some (0x02, 0x0801) := by decide

/-- Section 2.1: `SHR.8 0x1FF, 1`, the operand masked first. -/
theorem test_shr_by_one_masks : after (before 0x0000 (.evaluate 0 5 0x1FF 1)) = some (0x7F, 0x0801) := by decide

/-- Section 2.1: `SAR.16 0x8001, 1` with OF set before. -/
theorem test_sar_by_one : after (before 0x0800 (.evaluate 1 7 0x8001 1)) = some (0xC000, 0x0085) := by decide

/-- Section 2.2: `ROL.8 0x81, 1`, ZF, SF, PF kept. -/
theorem test_rol_by_one : after (before 0x00C4 (.evaluate 0 0 0x81 1)) = some (0x03, 0x08C5) := by decide

/-- Section 2.3: `RCL.8 0x40, 1` with CF set before. -/
theorem test_rcl_by_one : after (before 0x0001 (.evaluate 0 2 0x40 1)) = some (0x81, 0x0800) := by decide

/-- Section 2.3: `RCR.8 0x01, 1` with CF clear, the source's scenario corrected. -/
theorem test_rcr_by_one : after (before 0x0000 (.evaluate 0 3 0x01 1)) = some (0x00, 0x0001) := by decide

/-- Section 2.4: `SHLD.32 0x00000000, 0x00000000, 1`, AF kept. -/
theorem test_shld_by_one : after (before 0x08D1 (.evaluateDouble 2 0 0 1 false)) = some (0, 0x0054) := by decide

/-- Section 2.4: `SHRD.32 0x80000000, 0x00000001, 1` with OF set before. -/
theorem test_shrd_by_one :
    after (before 0x0800 (.evaluateDouble 2 0x80000000 0x00000001 1 true)) = some (0xC0000000, 0x0084) := by decide

/-- Sections 2.1, 2.2, 2.4: counts that mask to zero (`SHL.64 .., 64`, `ROL.8 0x12, 32`, `SHRD.32 .., 32`). -/
theorem test_zero_counts :
    after (before 0x0001 (.evaluate 3 4 0xFFFFFFFFFFFFFFFF 64)) = some (0xFFFFFFFFFFFFFFFF, 0x0001) ∧
    after (before 0x08D5 (.evaluate 0 0 0x12 32)) = some (0x12, 0x08D5) ∧
    after (before 0x08D5 (.evaluateDouble 2 0x12345678 0x9ABCDEF0 32 true)) = some (0x12345678, 0x08D5) := by decide

/-! ### Vectors at higher counts, for parameters that give OF the value `of` there, and the spec's defaults -/

/-- OF at count 2 or more is `of`; `ROR_OF1` is `mode`; `DSHIFT_OVERCOUNT` is `zero_fill`. -/
def params (of : Bool) (mode : RorOf1) : Config :=
  { ofMultiSingle := fun _ _ _ _ _ => of
    ofMultiDouble := fun _ _ _ _ _ _ => of
    rorOf1 := mode
    dshiftOvercount := zeroFill }

/-- `base + (OF << 11)`, as section 2 writes an open OF. -/
def withOf (base : FlagsWord) (of : Bool) : FlagsWord := if of then base ||| 0x0800 else base

/-- Section 2.1: `SHL.8 0x01, 8` and `SHL.8 0x01, 9`, at and above the width. -/
theorem test_shl_width_and_above : ∀ of : Bool,
    outputs (params of .doc) (.shl .w8 0x01 8) 0x0800 = { result := 0, flagsOut := withOf 0x0045 of } ∧
    outputs (params of .doc) (.shl .w8 0x01 9) 0x0801 = { result := 0, flagsOut := withOf 0x0044 of } := by decide

/-- Section 2.1: `SHR.8 0x80, 8` and `SHR.16 0x8000, 17`. -/
theorem test_shr_width_and_above : ∀ of : Bool,
    outputs (params of .doc) (.shr .w8 0x80 8) 0x0000 = { result := 0, flagsOut := withOf 0x0045 of } ∧
    outputs (params of .doc) (.shr .w16 0x8000 17) 0x0001 = { result := 0, flagsOut := withOf 0x0044 of } := by decide

/-- Section 2.1: `SAR.8 0x80, 7` and `SAR.8 0x80, 31`. -/
theorem test_sar_sign_fill : ∀ of : Bool,
    outputs (params of .doc) (.sar .w8 0x80 7) 0x0000 = { result := 0xFF, flagsOut := withOf 0x0084 of } ∧
    outputs (params of .doc) (.sar .w8 0x80 31) 0x0000 = { result := 0xFF, flagsOut := withOf 0x0085 of } := by decide

/-- Section 2.2: `ROL.8 0x81, 8` and `ROL.32 0x12345678, 8`. -/
theorem test_rol_multiple_of_width : ∀ of : Bool,
    outputs (params of .doc) (.rol .w8 0x81 8) 0x0000 = { result := 0x81, flagsOut := withOf 0x0001 of } ∧
    outputs (params of .doc) (.rol .w32 0x12345678 8) 0x0000 = { result := 0x34567812, flagsOut := withOf 0 of } := by
  decide

/-- Section 2.2: `ROR.8 0x01, 1` under both values of `ROR_OF1`. -/
theorem test_ror_both_parameters : ∀ of : Bool,
    outputs (params of .doc) (.ror .w8 0x01 1) 0x0000 = { result := 0x80, flagsOut := 0x0001 } ∧
    outputs (params of .signChange) (.ror .w8 0x01 1) 0x0000 = { result := 0x80, flagsOut := 0x0801 } := by decide

/-- Section 2.2: `ROR.8 0x01, 16` and `ROR.64 0x0123456789ABCDEF, 4`. -/
theorem test_ror_higher_counts : ∀ of : Bool,
    outputs (params of .doc) (.ror .w8 0x01 16) 0x0001 = { result := 0x01, flagsOut := withOf 0 of } ∧
    outputs (params of .doc) (.ror .w64 0x0123456789ABCDEF 4) 0x0000 =
      { result := 0xF0123456789ABCDE, flagsOut := withOf 0x0001 of } := by decide

/-- Section 2.3: `RCL.8 0x81, 9` (the ring back in place) and `RCL.8 0xA5, 3`. -/
theorem test_rcl_higher_counts : ∀ of : Bool,
    outputs (params of .doc) (.rcl .w8 0x81 9) 0x0001 = { result := 0x81, flagsOut := withOf 0x0001 of } ∧
    outputs (params of .doc) (.rcl .w8 0xA5 3) 0x0001 = { result := 0x2E, flagsOut := withOf 0x0001 of } := by decide

/-- Section 2.3: `RCR.8 0x01, 8` and `RCR.16 0x0001, 18`. -/
theorem test_rcr_higher_counts : ∀ of : Bool,
    outputs (params of .doc) (.rcr .w8 0x01 8) 0x0000 = { result := 0x02, flagsOut := withOf 0 of } ∧
    outputs (params of .doc) (.rcr .w16 0x0001 18) 0x0000 = { result := 0, flagsOut := withOf 0x0001 of } := by decide

/-- Section 2.4: `SHLD.32 0x12345678, 0x9ABCDEF0, 40`, and `SHLD.16 0x1234, 0xABCD, 20` under `zero_fill`. -/
theorem test_shld_higher_counts : ∀ of : Bool,
    outputs (params of .doc) (.shld .w32 0x12345678 0x9ABCDEF0 40) 0x0000 =
      { result := 0x3456789A, flagsOut := withOf 0x0004 of } ∧
    outputs (params of .doc) (.shld .w16 0x1234 0xABCD 20) 0x0000 =
      { result := 0xBCD0, flagsOut := withOf 0x0080 of } := by decide

/-- Section 2.4: `SHRD.16 0x1234, 0xABCD, 16`, and `SHRD.8 0x81, 0xFF, 16` under `zero_fill`. -/
theorem test_shrd_higher_counts : ∀ of : Bool,
    outputs (params of .doc) (.shrd .w16 0x1234 0xABCD 16) 0x0000 =
      { result := 0xABCD, flagsOut := withOf 0x0080 of } ∧
    outputs (params of .doc) (.shrd .w8 0x81 0xFF 16) 0x0000 =
      { result := 0, flagsOut := withOf 0x0045 of } := by decide

/-! ### Contract violations (95_test_vectors.md section 2.5) and rounds -/

/-- A bad operation, also at count zero. -/
theorem test_bad_operation_faults :
    step (before 0 (.evaluate 0 8 1 1)) = .fault (.contractViolation .badOperation) ∧
    step (before 0 (.evaluate 0 9 1 0)) = .fault (.contractViolation .badOperation) := ⟨rfl, rfl⟩

/-- A bad width, reported first when both are bad, and by the Double-Shift Engine. -/
theorem test_bad_width_faults :
    step (before 0 (.evaluate 4 4 1 1)) = .fault (.contractViolation .badWidth) ∧
    step (before 0x08D5 (.evaluate 7 12 0 32)) = .fault (.contractViolation .badWidth) ∧
    step (before 0 (.evaluateDouble 5 1 2 0 true)) = .fault (.contractViolation .badWidth) := ⟨rfl, rfl, rfl⟩

/-- No operand, count or flags word faults, and the bits the BSU does not know pass through. -/
theorem test_no_data_faults : ∀ of : Bool,
    outputs (params of .doc) (.shl .w8 0xFFFFFFFFFFFFFFFF 0xFFFFFFFF) 0xFFFFFFFF =
      { result := 0, flagsOut := withOf 0xFFFFF77E of } := by decide

/-- Contexts 0 and 3, the first with CF set, a round with a request of each. -/
def twoCallers : State :=
  { rounds :=
      [[{ context := 3, request := .evaluate 0 2 0x00 1 }, { context := 0, request := .evaluate 0 2 0x00 1 }]]
    active := 0
    contexts := [(0, { flags := 1, result := 0 })] }

/-- The same round, the other way about. -/
def twoCallersSwapped : State :=
  { twoCallers with
    rounds :=
      [[{ context := 0, request := .evaluate 0 2 0x00 1 }, { context := 3, request := .evaluate 0 2 0x00 1 }]] }

/-- Two requests on one flags word. -/
def sharedFlags : State :=
  { State.reset with
    rounds := [[{ context := 1, request := .evaluate 0 0 1 1 }, { context := 1, request := .evaluate 0 1 1 1 }]] }

/-- Each caller's carry rotate uses its own flags word: `RCL.8 0x00, 1` (section 2.3) gives context 0, with CF set, 1
and context 3 nothing. -/
theorem test_round_of_two_callers :
    step twoCallers = .next { rounds := [], active := 0, contexts := [(0, { flags := 0, result := 1 })] } := rfl

/-- The other way about, every context ends the same; only the context served last differs. -/
theorem test_round_swapped :
    step twoCallersSwapped = .next { rounds := [], active := 3, contexts := [(0, { flags := 0, result := 1 })] } := rfl

theorem test_shared_flags_word_refused : step sharedFlags = .refused .flagsWordShared := rfl

/-! ### Witnesses: the hypotheses of each obligation can be met, at the bounds of its clauses -/

/-- Context 0 with CF set. -/
def small : State := { State.reset with contexts := [(0, { flags := 0x0001, result := 0 })] }

theorem witness_DecodeAndEncodeAgree :
    decodeLine (.eval 0b11111#5 0x100#64 33) = .ok (.sar .w64 0x100#64 33) ∧
    decodeLine (.evald 0b111#3 1#64 2#64 7) = .ok (.shrd .w64 1#64 2#64 7) := ⟨rfl, rfl⟩

theorem witness_EveryLineIsExactlyOneRequest :
    encode (.shl .w8 1#64 2) = .eval 0b00100#5 1#64 2 ∧ encode (.shld .w16 1#64 2#64 3) = .evald 0b010#3 1#64 2#64 3 :=
  ⟨rfl, rfl⟩

/-- Width 3 and operation 7 are the last legal codes, 4 and 8 the first that are not. -/
theorem witness_ContractViolationExactlyOutsideEnumerations :
    (before 0 (.evaluate 3 7 1 2)).rounds = [{ context := 0, request := .evaluate 3 7 1 2 }] :: [] ∧
    (Request.evaluate 3 7 1 2).legal = true ∧ (Request.evaluate 3 8 1 2).legal = false ∧
    (Request.evaluate 4 7 1 2).legal = false ∧ (Request.evaluateDouble 3 1 1 2 true).legal = true ∧
    (Request.evaluateDouble 4 1 1 2 true).legal = false := by decide

theorem witness_BadWidthReportedBeforeBadOperation : ¬ 4 < 4 ∧ 3 < 4 ∧ ¬ 8 < 8 := by decide

/-- A bad operation at the first code that is none, with another round to come, and a bad width of each engine. -/
theorem witness_FaultEndsEveryRun :
    (State.rounds { State.reset with rounds := [{ context := 0, request := .evaluate 3 8 1 0 }] :: [[]] }) =
      [{ context := 0, request := .evaluate 3 8 1 0 }] :: [[]] ∧
    (Request.evaluate 3 8 1 0).legal = false ∧ (Request.evaluate 4 8 1 0).legal = false ∧
    (Request.evaluateDouble 4 1 2 0 true).legal = false := ⟨rfl, rfl, rfl, rfl⟩

/-- The second request of the round is the one that faults. -/
theorem witness_NoOtherFaultExists :
    ∃ f : Fault, step
      { State.reset with
        rounds := [[{ context := 0, request := .evaluate 0 0 1 0 }, { context := 1, request := .evaluate 0 8 1 1 }]] } =
      .fault f := ⟨_, rfl⟩

/-- And a round that meets the second clause. -/
theorem witness_NoOtherFaultExists_legal_round :
    twoCallers.rounds =
      [{ context := 3, request := .evaluate 0 2 0x00 1 }, { context := 0, request := .evaluate 0 2 0x00 1 }] :: [] ∧
    sharesFlagsWord [{ context := 3, request := .evaluate 0 2 0x00 1 }, { context := 0, request := .evaluate 0 2 0x00 1 }] =
      false ∧
    (Request.evaluate 0 2 0x00 1).legal = true := ⟨rfl, rfl, rfl⟩

theorem witness_LegalRequestsRunSafely : twoCallers.legal ∧ State.reset.legal := by
  constructor
  · intro round h
    simp only [twoCallers, List.mem_singleton] at h
    subst h
    exact ⟨rfl, by decide⟩
  · intro round h
    cases h

theorem witness_RefusesExactlyASharedFlagsWord :
    step sharedFlags = .refused .flagsWordShared ∧
    sharesFlagsWord [{ context := 0, request := .evaluate 0 0 1 0 }, { context := 1, request := .evaluate 0 0 1 0 }] =
      false := ⟨rfl, rfl⟩

theorem witness_StepEvaluatesTheDecodedRequest :
    (before 1 (.evaluate 0 2 0x40 1)).rounds = [{ context := 0, request := .evaluate 0 2 0x40 1 }] :: [] ∧
    decode (.evaluate 0 2 0x40 1) = .ok (.rcl .w8 0x40 1) ∧
    decode (.evaluateDouble 1 1 2 3 false) = .ok (.shld .w16 1 2 3) := ⟨rfl, rfl, rfl⟩

theorem witness_NothingHappensWithoutARequest : small.rounds = [] := rfl

/-- A request of context 5, whose flags word is 1, among other things going on. -/
def busy (r : Request) : State :=
  { rounds := [[{ context := 5, request := r }], []]
    active := 2
    contexts := [(0, { flags := 9, result := 9 }), (5, { flags := 1, result := 7 })] }

/-- Two machines that differ in everything but the request and its caller's flags word, for a request that runs and
for one that faults. -/
theorem witness_OutcomeDependsOnInputsOnly :
    (∀ r : Request, (before 1 r).rounds = [{ context := 0, request := r }] :: [] ∧
      (busy r).rounds = [{ context := 5, request := r }] :: [[]] ∧ (before 1 r).flagsOf 0 = (busy r).flagsOf 5) ∧
    (∃ t : State, step (before 1 (.evaluate 0 2 0x40 1)) = .next t) ∧
    ∃ f : Fault, step (before 1 (.evaluate 0 8 0x40 1)) = .fault f :=
  ⟨fun _ => ⟨rfl, rfl, rfl⟩, ⟨_, rfl⟩, _, rfl⟩

theorem witness_RequestTouchesOnlyItsOwnContext :
    (∃ t : State, exec (.rcl .w8 0x40 1) small = .next t) ∧ (1 : Nat) ≠ small.active := ⟨⟨_, rfl⟩, by decide⟩

theorem witness_StepLeavesIdleContextsAlone :
    (∃ t : State, step twoCallers = .next t) ∧
    ∀ issue ∈ [({ context := 3, request := .evaluate 0 2 0x00 1 } : Issue),
      { context := 0, request := .evaluate 0 2 0x00 1 }], issue.context ≠ 1 := ⟨⟨_, rfl⟩, by decide⟩

theorem witness_EachCallerAsIfAlone : ∃ t : State, run 2 twoCallers = .next t := ⟨_, rfl⟩

theorem witness_OrderWithinARoundIsImmaterial :
    ([({ context := 3, request := .evaluate 0 2 0x00 1 } : Issue), { context := 0, request := .evaluate 0 2 0x00 1 }]).Perm
      [{ context := 0, request := .evaluate 0 2 0x00 1 }, { context := 3, request := .evaluate 0 2 0x00 1 }] ∧
    sharesFlagsWord [{ context := 3, request := .evaluate 0 2 0x00 1 }, { context := 0, request := .evaluate 0 2 0x00 1 }] =
      false ∧
    (Request.evaluate 0 2 0x00 1).legal = true := ⟨List.Perm.swap _ _ _, rfl, rfl⟩

theorem witness_StepKeepsCanonicalForm : twoCallers.Inv ∧ ∃ t : State, step twoCallers = .next t :=
  ⟨by unfold State.Inv twoCallers; decide, _, rfl⟩

theorem witness_StepKeepsAfAndUnknownBits :
    ∃ t : State, step (before 0xFFFFFFFF (.evaluate 0 4 1 3)) = .next t := ⟨_, rfl⟩

theorem witness_BitsAboveTheWidthAreIgnored :
    (Instr.shl .w8 0xFF 1).wf = true ∧ (Instr.shl .w8 0x1FF 1).wf = false := by decide

/-- At 32 bits and below 32 masks to zero; at 64 bits 64 does and 32 does not. -/
theorem witness_ZeroCountChangesNothing :
    count (.rol .w8 0x12 32) = 0 ∧ count (.shrd .w64 1 2 64) = 0 ∧ (Instr.rol .w8 0x12 32).wf = true ∧
    count (.shl .w64 1 32) = 32 := by decide

theorem witness_SzpFromResultExactlyInShifts :
    (Instr.sal .w8 1 1).definesFullFlagSet = true ∧ 1 ≤ count (.sal .w8 1 1) ∧
    (Instr.rcl .w8 1 1).definesFullFlagSet = false ∧ count (.shld .w8 1 1 32) = 0 := by decide

theorem witness_OnlyOwnedFlagsAreWritten :
    (∃ t : State, exec (.ror .w8 1 1) small = .next t) ∧ (∃ t : State, exec (.shr .w8 1 3) small = .next t) ∧
    count (.ror .w8 1 32) = 0 ∧ ∃ t : State, exec (.ror .w8 1 32) small = .next t :=
  ⟨⟨_, rfl⟩, ⟨_, rfl⟩, rfl, _, rfl⟩

/-- Flags words that differ in every bit but CF, for a carry rotate; and in CF too, for a shift. -/
theorem witness_OnlyCarryRotatesReadTheFlags :
    (Instr.rcr .w8 1 3).carryChained = true ∧ getFlag 0xFFFFFFFF .cf = getFlag 0x00000001 .cf ∧
    (Instr.shl .w8 1 3).carryChained = false ∧ getFlag 0x1 .cf ≠ getFlag 0x0 .cf ∧
    1 ≤ count (.rcr .w8 1 3) ∧ Flag.cf ∈ ownedFlags (.rcr .w8 1 3) ∧ Flag.of ∈ ownedFlags (.shl .w8 1 1) ∧
    count (.shl .w8 1 1) = 1 := by decide

theorem witness_CarryAtCountOneByDirection :
    count (.rcl .w8 0x80 33) = 1 ∧ (Instr.rcl .w8 0x80 33).direction = .left ∧
    count (.shrd .w64 1 2 65) = 1 ∧ (Instr.shrd .w64 1 2 65).direction = .right := by decide

theorem witness_OverflowAtCountOneIsSignChange :
    count (.shrd .w64 1 2 65) = 1 ∧ ∀ (w : Width) (x : Word) (n : Nat), (Instr.shrd .w64 1 2 65) ≠ .ror w x n :=
  ⟨rfl, fun _ _ _ h => by cases h⟩

/-- The first count of each clause, also where only one of them holds (SAR by 63 at 64 bits). -/
theorem witness_CountsAtOrAboveTheWidth :
    Width.w8.bits ≤ effectiveCount .w8 8 ∧ Width.w16.bits ≤ effectiveCount .w16 31 ∧
    Width.w64.bits - 1 ≤ effectiveCount .w64 63 ∧ effectiveCount .w8 24 % Width.w8.bits = 0 ∧
    effectiveCount .w8 24 ≠ 0 := by decide

/-- Counts 1, N, N+1 and a raw count that masks to 1: the shifts, the rotates and the carry rotates. -/
theorem witness_nonzero_counts :
    1 ≤ effectiveCount .w8 1 ∧ effectiveCount .w8 8 = Width.w8.bits ∧ effectiveCount .w8 9 = Width.w8.bits + 1 ∧
    effectiveCount .w32 33 = 1 ∧ effectiveCount .w64 63 = 63 := by decide

theorem witness_ShlResultAndFlags : 1 ≤ effectiveCount .w8 8 ∧ 1 ≤ effectiveCount .w8 9 ∧ 1 ≤ effectiveCount .w8 1 := by
  decide

theorem witness_ShrResultAndFlags : 1 ≤ effectiveCount .w16 16 ∧ 1 ≤ effectiveCount .w16 17 ∧ effectiveCount .w16 1 = 1 := by
  decide

theorem witness_SarResultAndFlags : 1 ≤ effectiveCount .w8 7 ∧ 1 ≤ effectiveCount .w8 31 ∧ effectiveCount .w8 1 = 1 := by
  decide

theorem witness_ShiftCarryIsTheLastBitOut : 1 ≤ effectiveCount .w8 1 ∧ 1 ≤ effectiveCount .w8 9 := by decide

/-- The lowest and the highest bit filled by a count of 3, and a count above the width. -/
theorem witness_RightShiftsFillByTheirAttribute :
    (Instr.shr .w8 0x80 3).arithmetic = false ∧ (Instr.sar .w8 0x80 3).arithmetic = true ∧
    1 ≤ effectiveCount .w8 3 ∧ Width.w8.bits ≤ 5 + effectiveCount .w8 3 ∧ 7 < Width.w8.bits ∧
    Width.w8.bits ≤ 0 + effectiveCount .w8 9 := by decide

/-- Counts 1, a multiple of N, and N+1. -/
theorem witness_RolResultAndFlags : effectiveCount .w8 1 = 1 ∧ 1 ≤ effectiveCount .w8 16 ∧ 1 ≤ effectiveCount .w8 9 := by
  decide

theorem witness_RorResultAndFlags : effectiveCount .w16 1 = 1 ∧ 1 ≤ effectiveCount .w16 16 ∧ 1 ≤ effectiveCount .w16 17 := by
  decide

/-- Both values of the parameter, at a count of 1 by itself and by masking. -/
theorem witness_RorOverflowUnderBothParameterValues :
    effectiveCount .w8 1 = 1 ∧ effectiveCount .w64 65 = 1 ∧ (params true .doc).rorOf1 = .doc ∧
    (params true .signChange).rorOf1 = .signChange := ⟨rfl, rfl, rfl, rfl⟩

theorem witness_CarryRotatesTurnTheRing : 1 ≤ effectiveCount .w8 1 ∧ 1 ≤ effectiveCount .w8 18 := by decide

/-- Counts 1, N, and N+1, which turns the whole ring once. -/
theorem witness_RclResultAndFlags :
    effectiveCount .w8 1 = 1 ∧ 1 ≤ effectiveCount .w8 8 ∧ effectiveCount .w8 9 % (Width.w8.bits + 1) = 0 ∧
    1 ≤ effectiveCount .w8 9 := by decide

theorem witness_RcrResultAndFlags :
    effectiveCount .w16 1 = 1 ∧ 1 ≤ effectiveCount .w16 16 ∧ effectiveCount .w16 17 % (Width.w16.bits + 1) = 0 ∧
    1 ≤ effectiveCount .w16 17 := by decide

/-- Counts 1, N-1 and N. -/
theorem witness_ShldResultAndFlags :
    (1 ≤ effectiveCount .w8 1 ∧ effectiveCount .w8 1 ≤ Width.w8.bits) ∧
    (effectiveCount .w8 7 < Width.w8.bits ∧ 1 ≤ effectiveCount .w8 7) ∧
    (1 ≤ effectiveCount .w8 8 ∧ effectiveCount .w8 8 = Width.w8.bits) := by decide

theorem witness_ShrdResultAndFlags :
    (1 ≤ effectiveCount .w16 1 ∧ effectiveCount .w16 1 ≤ Width.w16.bits) ∧
    (effectiveCount .w16 15 < Width.w16.bits ∧ 1 ≤ effectiveCount .w16 15) ∧
    (1 ≤ effectiveCount .w16 16 ∧ effectiveCount .w16 16 = Width.w16.bits) := by decide

theorem witness_DoubleShiftsAboveTheWidthComplete :
    Width.w8.bits < effectiveCount .w8 9 ∧ Width.w16.bits < effectiveCount .w16 31 := by decide

/-- Counts N+1, 2N and 2N+1, with parameters that take the default. -/
theorem witness_ZeroFillAboveTheWidth :
    (params true .doc).dshiftOvercount = zeroFill ∧ Width.w8.bits < effectiveCount .w8 9 ∧
    effectiveCount .w8 16 = 2 * Width.w8.bits ∧ effectiveCount .w8 17 = 2 * Width.w8.bits + 1 :=
  ⟨rfl, by decide, rfl, rfl⟩

theorem witness_DoubleShiftsAreOneBitSteps :
    (params false .doc).dshiftOvercount = zeroFill ∧ 1 ≤ effectiveCount .w8 1 ∧ 1 ≤ effectiveCount .w8 17 :=
  ⟨rfl, by decide, by decide⟩

theorem witness_DoubleShiftOverflowAtCountOne : effectiveCount .w32 1 = 1 ∧ effectiveCount .w8 33 = 1 := by decide

theorem witness_EqualOperandsRotate :
    effectiveCount .w8 7 < Width.w8.bits ∧ effectiveCount .w64 64 < Width.w64.bits := by decide

theorem witness_ZeroSourceIsASingleShift :
    effectiveCount .w8 8 ≤ Width.w8.bits ∧ effectiveCount .w8 32 ≤ Width.w8.bits ∧ effectiveCount .w8 1 ≤ 1 := by decide

end Sys2Proof.Tests
end

/-! ### A request presented alone (spec/10_state.md, R10, R69) -/

namespace Sys2Proof.Machine

/-- A round of one request is that request's evaluation. -/
@[simp] theorem evalRound_singleton (issue : Issue) (s : State) : evalRound [issue] s = evalIssue issue s := by
  rw [evalRound]
  cases evalIssue issue s <;> rfl

/-- A round of one request names no flags word twice. -/
@[simp] theorem sharesFlagsWord_singleton (issue : Issue) : sharesFlagsWord [issue] = false := by
  simp [sharesFlagsWord]

section Lone

variable {k : Nat} {r : Request} {rest : List (List Issue)} {s : State}

/-- A request presented alone is evaluated on the state with its round taken off. -/
theorem step_lone (h : s.rounds = [{ context := k, request := r }] :: rest) :
    step s = evalIssue { context := k, request := r } { s with rounds := rest } := by
  rw [step_eq, h]
  simp

/-- A lone request that passes the check has its outputs delivered to its context. -/
theorem step_lone_of_ok (h : s.rounds = [{ context := k, request := r }] :: rest) {o : Outputs}
    (ho : evaluateRequest Config.chosen r (s.flagsOf k) = .ok o) :
    step s = .next ((State.activate { s with rounds := rest } k).deliver o) := by
  have hf : State.flagsOf { s with rounds := rest } k = s.flagsOf k := rfl
  rw [step_lone h, evalIssue_eq]
  simp only [hf, ho]

/-- A lone request that fails the check ends in the contract violation the check found. -/
theorem step_lone_of_error (h : s.rounds = [{ context := k, request := r }] :: rest) {reason : ViolationReason}
    (he : evaluateRequest Config.chosen r (s.flagsOf k) = .error reason) :
    step s = .fault (.contractViolation reason) := by
  have hf : State.flagsOf { s with rounds := rest } k = s.flagsOf k := rfl
  rw [step_lone h, evalIssue_eq]
  simp only [hf, he]

end Lone

/-- The result port of a context just made active, after its request's outputs are delivered. -/
theorem activate_deliver_resultOf (s : State) (k : Nat) (o : Outputs) :
    ((s.activate k).deliver o).resultOf k = o.result :=
  deliver_resultOf_active (s.activate k) o

/-- The flags word of a context just made active, after its request's outputs are delivered. -/
theorem activate_deliver_flagsOf (s : State) (k : Nat) (o : Outputs) :
    ((s.activate k).deliver o).flagsOf k = o.flagsOut :=
  deliver_flagsOf_active (s.activate k) o

/-- Settles O12: both machines evaluate the one pure function `evaluateRequest` at the same arguments, and what either
shows of the request is that function's value. -/
theorem outcomeDependsOnInputsOnly : Obligations.OutcomeDependsOnInputsOnly := by
  unfold Obligations.OutcomeDependsOnInputsOnly
  intro k k' r rest rest' s s' hs hs' hflags
  cases hv : evaluateRequest Config.chosen r (s.flagsOf k) with
  | ok o =>
    have hstep := step_lone_of_ok hs hv
    have hstep' := step_lone_of_ok hs' (hflags ▸ hv)
    refine ⟨fun f => by simp [hstep, hstep'], fun t ht => ⟨_, hstep', ?_⟩⟩
    obtain rfl := Host.Outcome.next.inj (hstep.symm.trans ht)
    simp only [activate_deliver_resultOf, activate_deliver_flagsOf, and_self]
  | error reason =>
    have hstep := step_lone_of_error hs hv
    have hstep' := step_lone_of_error hs' (hflags ▸ hv)
    refine ⟨fun f => by rw [hstep, hstep'], fun t ht => ?_⟩
    rw [hstep] at ht
    cases ht

end Sys2Proof.Machine

/-! ### Each caller as if it ran alone (spec/20_memory.md, R35) -/

namespace Sys2Proof.Machine

section Alone

variable {k : Nat} {s s' t : State}

/-- The requests of a round that context `k` issued, in their order. -/
def issuesOf (k : Nat) (round : List Issue) : List Issue := round.filter fun issue => decide (issue.context = k)

theorem only_rounds (s : State) (k : Nat) : (s.only k).rounds = s.rounds.map (issuesOf k) := rfl

theorem issuesOf_cons_own {issue : Issue} (rest : List Issue) (h : issue.context = k) :
    issuesOf k (issue :: rest) = issue :: issuesOf k rest := by
  simp [issuesOf, h]

theorem issuesOf_cons_other {issue : Issue} (rest : List Issue) (h : issue.context ≠ k) :
    issuesOf k (issue :: rest) = issuesOf k rest := by
  simp [issuesOf, h]

/-- Taking other callers' requests out of a round makes no two requests share a flags word. -/
theorem sharesFlagsWord_issuesOf {round : List Issue} (k : Nat) (h : sharesFlagsWord round = false) :
    sharesFlagsWord (issuesOf k round) = false := by
  simp only [sharesFlagsWord, Bool.not_eq_false', decide_eq_true_eq] at h ⊢
  exact h.sublist (List.filter_sublist.map _)

/-- Evaluating a request takes no round off and adds none. -/
theorem evalIssue_rounds {issue : Issue} (h : evalIssue issue s = .next t) : t.rounds = s.rounds := by
  obtain ⟨i, -, rfl⟩ := evalIssue_next h
  rfl

/-- A request leaves every context but its own as it was. -/
theorem evalIssue_context_ne {issue : Issue} (h : evalIssue issue s = .next t) (hk : issue.context ≠ k) :
    t.context k = s.context k := by
  obtain ⟨i, -, rfl⟩ := evalIssue_next h
  exact deliver_context_ne _ _ hk.symm

/-- What a request leaves in its own context depends on the rest of the state only through that context. -/
theorem evalIssue_context_own {issue : Issue} (h : evalIssue issue s = .next t)
    (hc : s'.context issue.context = s.context issue.context) :
    ∃ t', evalIssue issue s' = .next t' ∧ t'.context issue.context = t.context issue.context := by
  obtain ⟨i, hi, rfl⟩ := evalIssue_next h
  have hf : s'.flagsOf issue.context = s.flagsOf issue.context := congrArg Context.flags hc
  refine ⟨(s'.activate issue.context).deliver (outputs Config.chosen i (s'.flagsOf issue.context)), ?_, ?_⟩
  · simp only [evalIssue, hi, exec_eq, activate_flagsIn]
  · rw [hf]
    exact (deliver_context_active (s'.activate issue.context) _).trans
      (deliver_context_active (s.activate issue.context) _).symm

/-- Evaluating a round leaves the rounds to come as they were. -/
theorem evalRound_rounds {round : List Issue} (h : evalRound round s = .next t) : t.rounds = s.rounds :=
  evalRound_induction (P := fun u => u.rounds = s.rounds) (fun _ _ _ hi hu => (evalIssue_rounds hi).trans hu)
    round s t h rfl

/-- A round and context `k`'s part of it leave the same in context `k`, from states that agree on it. -/
theorem evalRound_issuesOf {round : List Issue} (h : evalRound round s = .next t)
    (hc : s'.context k = s.context k) :
    ∃ t', evalRound (issuesOf k round) s' = .next t' ∧ t'.context k = t.context k := by
  induction round generalizing s s' with
  | nil =>
    cases h
    exact ⟨s', rfl, hc⟩
  | cons issue rest ih =>
    obtain ⟨u, hu, ht⟩ := evalRound_cons_next h
    by_cases hk : issue.context = k
    · subst hk
      obtain ⟨u', hu', hcu⟩ := evalIssue_context_own hu hc
      rw [issuesOf_cons_own rest rfl, evalRound_cons_of_next hu']
      exact ih ht hcu
    · rw [issuesOf_cons_other rest hk]
      exact ih ht (hc.trans (evalIssue_context_ne hu hk).symm)

/-- A conflict-free round is taken off and evaluated. -/
theorem step_of_rounds_cons {round : List Issue} {rest : List (List Issue)} (hr : s.rounds = round :: rest)
    (hs : sharesFlagsWord round = false) : step s = evalRound round { s with rounds := rest } := by
  rw [step_eq, hr]
  simp [hs]

/-- `s'` is `s` as context `k` sees it: of the rounds to come `s'` has `k`'s part, and `k` owns the same in both. -/
structure AloneMatches (k : Nat) (s s' : State) : Prop where
  rounds : s'.rounds = s.rounds.map (issuesOf k)
  context : s'.context k = s.context k

theorem aloneMatches_only (k : Nat) (s : State) : AloneMatches k s (s.only k) := ⟨only_rounds s k, rfl⟩

/-- One step of the mixture is matched by one step of context `k` alone. -/
theorem step_keeps_aloneMatches (hm : AloneMatches k s s') (h : step s = .next t) :
    ∃ t', step s' = .next t' ∧ AloneMatches k t t' := by
  obtain ⟨hrounds, hcontext⟩ := hm
  rcases step_next h with ⟨hr, rfl⟩ | ⟨round, rest, hr, hs, ht⟩
  · refine ⟨s', ?_, hrounds, hcontext⟩
    rw [step_eq, hrounds, hr]
    rfl
  · have hr' : s'.rounds = issuesOf k round :: rest.map (issuesOf k) := by rw [hrounds, hr, List.map_cons]
    obtain ⟨t', ht', hc⟩ :=
      evalRound_issuesOf (k := k) (s' := { s' with rounds := rest.map (issuesOf k) }) ht hcontext
    refine ⟨t', (step_of_rounds_cons hr' (sharesFlagsWord_issuesOf k hs)).trans ht', ?_, hc⟩
    rw [evalRound_rounds ht', evalRound_rounds ht]

/-- A run of at least one step that answers a next state: its first step does, and the run goes on from there. -/
theorem run_succ_next {m : Nat} (h : run (m + 1) s = .next t) : ∃ u, step s = .next u ∧ run m u = .next t := by
  cases hs : step s with
  | next u => exact ⟨u, rfl, run_succ_of_next m hs ▸ h⟩
  | fault f =>
    rw [run_succ_of_fault m hs] at h
    cases h
  | refused q =>
    rw [run_succ_of_refused m hs] at h
    cases h

/-- The simulation along a run of any length. -/
theorem run_keeps_aloneMatches {m : Nat} (hm : AloneMatches k s s') (h : run m s = .next t) :
    ∃ t', run m s' = .next t' ∧ AloneMatches k t t' := by
  induction m generalizing s s' with
  | zero =>
    cases h
    exact ⟨s', rfl, hm⟩
  | succ m ih =>
    obtain ⟨u, hu, ht⟩ := run_succ_next h
    obtain ⟨u', hu', hmu⟩ := step_keeps_aloneMatches hm hu
    rw [run_succ_of_next m hu']
    exact ih hmu ht

end Alone

/-- Settles O15: the mixture and context `k` alone stay matched (`AloneMatches`) at every step, by induction on the
number of steps; within a step, by induction on the requests of its round. -/
theorem eachCallerAsIfAlone : Obligations.EachCallerAsIfAlone := by
  unfold Obligations.EachCallerAsIfAlone
  intro m k s t h
  obtain ⟨t', ht', hm⟩ := run_keeps_aloneMatches (aloneMatches_only k s) h
  exact ⟨t', ht', hm.context⟩

end Sys2Proof.Machine

/-! ### Common to all ten operations (spec/40_common_evaluate.md, R62, R63, R65, R66) -/

namespace Sys2Proof.Machine

/-- Masking the count again changes nothing. -/
@[simp] theorem effectiveCount_effectiveCount (w : Width) (n : Nat) :
    effectiveCount w (effectiveCount w n) = effectiveCount w n := by
  simp [effectiveCount]

/-- The skeleton reads the raw count through its mask alone. -/
@[simp] theorem evaluateWith_effectiveCount (w : Width) (x : Word) (n : Nat) (f : FlagsWord)
    (rule : BitVec w.bits → Nat → BitVec w.bits × FlagsWord) :
    evaluateWith w x (effectiveCount w n) f rule = evaluateWith w x n f rule := by
  simp only [evaluateWith, effectiveCount_effectiveCount]

/-- A request with its count masked has the outputs of the request. -/
theorem outputs_withRawCount_count (p : Config) (i : Instr) (f : FlagsWord) :
    outputs p (i.withRawCount (count i)) f = outputs p i f := by
  cases i <;> exact evaluateWith_effectiveCount _ _ _ _ _

/-- At effective count zero every operation gives back its operand, inside the width, and its flags word (R63). -/
theorem outputs_of_count_eq_zero (p : Config) {i : Instr} (f : FlagsWord) (hc : count i = 0) :
    outputs p i f = { result := container (operand i.width i.target), flagsOut := f } := by
  cases i <;> exact evaluateWith_zero hc

/-- At a non-zero count a rotate gives an N-bit result and writes CF and OF (R67). -/
theorem outputs_of_rotate (p : Config) {i : Instr} (f : FlagsWord) (hi : i.definesFullFlagSet = false)
    (hc : 1 ≤ count i) :
    ∃ (r : BitVec i.width.bits) (cf of : Bool),
      outputs p i f = { result := container r, flagsOut := rotateFlags f cf of } := by
  cases i with
  | rol | ror | rcl | rcr => exact ⟨_, _, _, evaluateWith_pos hc⟩
  | shl | shr | sal | sar | shld | shrd => cases hi

/-- At a non-zero count a shift gives an N-bit result and writes the full flag set from it (R66, R67). -/
theorem outputs_of_shift (p : Config) {i : Instr} (f : FlagsWord) (hi : i.definesFullFlagSet = true)
    (hc : 1 ≤ count i) :
    ∃ (r : BitVec i.width.bits) (cf of : Bool),
      outputs p i f = { result := container r, flagsOut := shiftFlags f cf of r } := by
  cases i with
  | rol | ror | rcl | rcr => cases hi
  | shl | shr | sal | sar | shld | shrd => exact ⟨_, _, _, evaluateWith_pos hc⟩

/-- Every result is an N-bit pattern in its container, at every count. -/
theorem outputs_result_eq_container (p : Config) (i : Instr) (f : FlagsWord) :
    ∃ r : BitVec i.width.bits, (outputs p i f).result = container r := by
  rcases Nat.eq_zero_or_pos (count i) with hc | hc
  · exact ⟨_, congrArg Outputs.result (outputs_of_count_eq_zero p f hc)⟩
  · cases hi : i.definesFullFlagSet with
    | false =>
      obtain ⟨r, cf, of, h⟩ := outputs_of_rotate p f hi hc
      exact ⟨r, congrArg Outputs.result h⟩
    | true =>
      obtain ⟨r, cf, of, h⟩ := outputs_of_shift p f hi hc
      exact ⟨r, congrArg Outputs.result h⟩

/-- A container has zeros above its pattern. -/
theorem getLsbD_container_of_ge {n b : Nat} (r : BitVec n) (h : n ≤ b) : (container r).getLsbD b = false := by
  simp [container, BitVec.getLsbD_of_ge r b h]

/-- A rotate's flags keep ZF, SF and PF. -/
theorem getFlag_rotateFlags_of_szp (f : FlagsWord) (cf of : Bool) {x : Flag} (hx : x = .zf ∨ x = .sf ∨ x = .pf) :
    getFlag (rotateFlags f cf of) x = getFlag f x := by
  rcases hx with rfl | rfl | rfl <;> exact getFlag_rotateFlags ..

/-- Settles O21: every operation is the shared skeleton, which masks the count before any use, and masking twice is
masking once. -/
theorem onlyTheMaskedCountMatters : Obligations.OnlyTheMaskedCountMatters := by
  unfold Obligations.OnlyTheMaskedCountMatters
  intro i s
  refine ⟨rfl, ?_, _, exec_eq i s⟩
  change exec i s = exec (i.withRawCount (count i)) s
  rw [exec_eq, exec_eq, outputs_withRawCount_count]

/-- Settles O24: the result is an N-bit pattern in its container. -/
theorem resultStaysInsideTheWidth : Obligations.ResultStaysInsideTheWidth := by
  unfold Obligations.ResultStaysInsideTheWidth
  intro i s
  obtain ⟨r, hr⟩ := outputs_result_eq_container Config.chosen i s.flagsIn
  refine ⟨_, exec_eq i s, fun b hb => ?_⟩
  rw [deliver_resultOf_active, hr]
  exact getLsbD_container_of_ge r hb

/-- Settles O25: a shift at a non-zero count ends its flags with `SetSZP` of its result; a rotate writes CF and OF
only, and at count zero the flags word comes back whole. -/
theorem szpFromResultExactlyInShifts : Obligations.SzpFromResultExactlyInShifts := by
  unfold Obligations.SzpFromResultExactlyInShifts
  intro i s
  refine ⟨_, exec_eq i s, fun hi hc => ?_, fun h x hx => ?_⟩
  · obtain ⟨r, cf, of, ho⟩ := outputs_of_shift Config.chosen s.flagsIn hi hc
    rw [deliver_flagsOf_active, deliver_resultOf_active, ho, container_toNat (bits_le_64 i.width)]
    exact szpOf_shiftFlags s.flagsIn cf of r
  · rw [deliver_flagsOf_active]
    rcases Nat.eq_zero_or_pos (count i) with hc | hc
    · rw [outputs_of_count_eq_zero Config.chosen s.flagsIn hc]
    · have hi : i.definesFullFlagSet = false := h.resolve_right (by omega)
      obtain ⟨r, cf, of, ho⟩ := outputs_of_rotate Config.chosen s.flagsIn hi hc
      rw [ho]
      exact getFlag_rotateFlags_of_szp s.flagsIn cf of hx

end Sys2Proof.Machine

/-! ### OF of a double shift (spec/44_double_shift.md, R126) -/

namespace Sys2Proof.Machine

/-- The sign bit of an N-bit pattern is bit N-1 of its number. -/
theorem msb_eq_testBit_toNat {n : Nat} (r : BitVec n) : r.msb = r.toNat.testBit (n - 1) := by
  rw [BitVec.msb_eq_getLsbD_last, BitVec.testBit_toNat]

/-- At a non-zero count a double shift in either direction gives an N-bit result and the flags of a double shift. -/
theorem outputs_doubleInstr (p : Config) {w : Width} (d s : Word) {n : Nat} (f : FlagsWord) (right : Bool)
    (hc : 1 ≤ effectiveCount w n) :
    ∃ (r : BitVec w.bits) (cf : Bool), outputs p (doubleInstr right w d s n) f =
      { result := container r
        flagsOut := doubleShiftFlags p w right f (operand w d) (operand w s) r cf (effectiveCount w n) } := by
  cases right with
  | false => exact ⟨_, _, evaluateWith_pos hc⟩
  | true => exact ⟨_, _, evaluateWith_pos hc⟩

/-- At count 1 the flags of a double shift have in OF the sign change from the destination to the result (R126). -/
theorem getFlag_of_doubleShiftFlags_one (p : Config) (w : Width) (right : Bool) (f : FlagsWord)
    (d s r : BitVec w.bits) (cf : Bool) :
    getFlag (doubleShiftFlags p w right f d s r cf 1) .of = (d.msb ^^ r.msb) := by
  rw [doubleShiftFlags, if_pos rfl, getFlag_shiftFlags]

/-- Settles O51: at count 1 both directions write into OF the destination's sign bit xor the result's, and a xor is 1
exactly when its two bits differ. -/
theorem doubleShiftOverflowAtCountOne : Obligations.DoubleShiftOverflowAtCountOne := by
  unfold Obligations.DoubleShiftOverflowAtCountOne
  intro w destination source n s right hc
  obtain ⟨r, cf, ho⟩ := outputs_doubleInstr Config.chosen destination source s.flagsIn right hc.ge
  refine ⟨_, exec_eq _ s, ?_⟩
  rw [deliver_flagsOf_active, deliver_resultOf_active, ho, hc, getFlag_of_doubleShiftFlags_one,
    container_toNat (bits_le_64 w), msb_eq_testBit_toNat, msb_eq_testBit_toNat, operand_toNat]
  exact ⟨rfl, Bool.xor_iff_ne⟩

end Sys2Proof.Machine

/-! ### The one fault (spec/60_exceptions.md, R140, R144, R171) -/

namespace Sys2Proof.Machine

/-- The enumeration check gives a reason exactly for the requests outside the enumerations (R61). -/
theorem decode_error_iff_not_legal (r : Request) : (∃ reason, decode r = .error reason) ↔ r.legal = false := by
  rw [← Bool.not_eq_true, ← decode_ok_iff_legal]
  cases decode r <;> simp

/-- An issue outside the enumerations ends in the contract violation, whatever the state. -/
theorem evalIssue_of_not_legal {issue : Issue} (s : State) (h : issue.request.legal = false) :
    ∃ reason, evalIssue issue s = .fault (.contractViolation reason) := by
  obtain ⟨reason, hd⟩ := (decode_error_iff_not_legal _).mpr h
  exact ⟨reason, by simp only [evalIssue, hd, raiseContractViolation]⟩

/-- An issue that faults was outside the enumerations, and the fault is the contract violation. -/
theorem evalIssue_fault {issue : Issue} {s : State} {f : Fault} (h : evalIssue issue s = .fault f) :
    (∃ reason, f = .contractViolation reason) ∧ issue.request.legal = false := by
  cases hl : issue.request.legal with
  | false =>
    obtain ⟨reason, hr⟩ := evalIssue_of_not_legal s hl
    exact ⟨⟨reason, Host.Outcome.fault.inj (h.symm.trans hr)⟩, rfl⟩
  | true =>
    obtain ⟨t, ht⟩ := evalIssue_of_legal s hl
    cases h.symm.trans ht

/-- A round that faults: its first issue did, or the rest did after it. -/
theorem evalRound_cons_fault {issue : Issue} {rest : List Issue} {s : State} {f : Fault}
    (h : evalRound (issue :: rest) s = .fault f) :
    evalIssue issue s = .fault f ∨ ∃ u, evalRound rest u = .fault f := by
  cases hi : evalIssue issue s with
  | next u => exact .inr ⟨u, evalRound_cons_of_next hi ▸ h⟩
  | fault r => exact .inl (by simpa [evalRound, hi] using h)
  | refused q => exact absurd hi (evalIssue_not_refused issue s q)

/-- A round that faults holds an issue outside the enumerations, and the fault is the contract violation. -/
theorem evalRound_fault {round : List Issue} {s : State} {f : Fault} (h : evalRound round s = .fault f) :
    (∃ reason, f = .contractViolation reason) ∧ ∃ issue ∈ round, issue.request.legal = false := by
  induction round generalizing s with
  | nil => cases h
  | cons issue rest ih =>
    rcases evalRound_cons_fault h with hi | ⟨u, hu⟩
    · obtain ⟨hf, hl⟩ := evalIssue_fault hi
      exact ⟨hf, issue, List.mem_cons_self, hl⟩
    · obtain ⟨hf, bad, hmem, hl⟩ := ih hu
      exact ⟨hf, bad, List.mem_cons_of_mem _ hmem, hl⟩

/-- A round of legal issues answers a next state. -/
theorem evalRound_of_legal {round : List Issue} (s : State) (h : ∀ issue ∈ round, issue.request.legal = true) :
    ∃ t, evalRound round s = .next t := by
  induction round generalizing s with
  | nil => exact ⟨s, rfl⟩
  | cons issue rest ih =>
    obtain ⟨hissue, hrest⟩ := List.forall_mem_cons.mp h
    obtain ⟨u, hu⟩ := evalIssue_of_legal s hissue
    rw [evalRound_cons_of_next hu]
    exact ih u hrest

/-- A step that faults evaluated a conflict-free round, and that round faulted. -/
theorem step_fault {s : State} {f : Fault} (h : step s = .fault f) :
    ∃ round rest, s.rounds = round :: rest ∧ sharesFlagsWord round = false ∧
      evalRound round { s with rounds := rest } = .fault f := by
  cases hr : s.rounds with
  | nil =>
    rw [step_eq, hr] at h
    cases h
  | cons round rest =>
    cases hs : sharesFlagsWord round with
    | false => exact ⟨round, rest, rfl, hs, step_of_rounds_cons hr hs ▸ h⟩
    | true => simp [step_eq, hr, hs] at h

/-- Settles O4: a lone request is evaluated as one issue, which answers a next state when it is legal and the contract
violation when it is not; a step has one outcome, so each outcome also tells which case it was. -/
theorem contractViolationExactlyOutsideEnumerations : Obligations.ContractViolationExactlyOutsideEnumerations := by
  unfold Obligations.ContractViolationExactlyOutsideEnumerations
  intro k r rest s hs
  rw [step_lone hs]
  cases hl : r.legal with
  | false =>
    obtain ⟨reason, hr⟩ :=
      evalIssue_of_not_legal (issue := { context := k, request := r }) { s with rounds := rest } hl
    simp [hr]
  | true =>
    obtain ⟨t, ht⟩ := evalIssue_of_legal (issue := { context := k, request := r }) { s with rounds := rest } hl
    simp [ht]

/-- Settles O7: a step faults only where an issue of its round does, and an issue faults only outside the
enumerations; a conflict-free round of legal issues is evaluated to its end. -/
theorem noOtherFaultExists : Obligations.NoOtherFaultExists := by
  unfold Obligations.NoOtherFaultExists
  refine ⟨fun s f h => ?_, fun s round rest hr hs hlegal => ?_⟩
  · obtain ⟨round, rest, hr, -, hround⟩ := step_fault h
    obtain ⟨⟨reason, hf⟩, hbad⟩ := evalRound_fault hround
    exact ⟨reason, round, rest, hf, hr, hbad⟩
  · rw [step_of_rounds_cons hr hs]
    exact evalRound_of_legal _ hlegal

end Sys2Proof.Machine

/-! ### Requests and lines (spec/30_encoding.md, R41, R42, R52) -/

namespace Sys2Proof

/-- A request read back from its line, for all ten operations. -/
theorem decodeLine_encode (i : Instr) : decodeLine (encode i) = .ok i := by
  cases i with
  | rol | ror | rcl | rcr | shl | shr | sal | sar => exact decodeLine_evalSel ..
  | shld | shrd => exact decodeLine_evaldSel ..

/-- Every line is the encoding of a request. -/
theorem encode_surjective (l : Line) : ∃ i, encode i = l := by
  cases l with
  | eval sel value n =>
    obtain ⟨w, op, rfl⟩ := evalSel_surjective sel
    exact ⟨_, encode_singleInstr w op value n⟩
  | evald sel d s n =>
    obtain ⟨w, right, rfl⟩ := evaldSel_surjective sel
    exact ⟨_, encode_doubleInstr w right d s n⟩

/-- A line that decodes to a request is its encoding: it is some request's, and that one it decodes to. -/
theorem encode_of_decodeLine {l : Line} {i : Instr} (h : decodeLine l = .ok i) : encode i = l := by
  obtain ⟨j, rfl⟩ := encode_surjective l
  rw [decodeLine_encode] at h
  rw [Except.ok.inj h]

/-- Settles O1: decoding inverts encoding on every request, and every line is an encoding. -/
theorem decodeAndEncodeAgree : Obligations.DecodeAndEncodeAgree := by
  unfold Obligations.DecodeAndEncodeAgree
  exact ⟨decodeLine_encode, fun _ _ => encode_of_decodeLine⟩

/-- Settles O2: every line is an encoding, and two requests with one encoding decode alike, so they are equal. -/
theorem everyLineIsExactlyOneRequest : Obligations.EveryLineIsExactlyOneRequest := by
  unfold Obligations.EveryLineIsExactlyOneRequest
  intro l
  obtain ⟨i, rfl⟩ := encode_surjective l
  refine ⟨i, rfl, decodeLine_encode i, fun j hj => ?_⟩
  exact Except.ok.inj ((decodeLine_encode j).symm.trans (hj ▸ decodeLine_encode i))

/-- Settles O3: each selector written out is that of a width and an operation (or a direction), and decodes to them. -/
theorem writtenLinesDecode : Obligations.WrittenLinesDecode := by
  unfold Obligations.WrittenLinesDecode
  exact ⟨decodeLine_evalSel .w64 .shl _ _, decodeLine_evalSel .w64 .rcl _ _, decodeLine_evaldSel .w32 true _ _ _,
    decodeLine_evalSel .w16 .sar _ _, decodeLine_evalSel .w8 .sal _ _, decodeLine_evaldSel .w8 false _ _ _⟩

end Sys2Proof

/-! ### What every step keeps (spec/10_state.md, R16, R18) -/

namespace Sys2Proof.Machine

/-- Evaluating one issue keeps the store of contexts canonical. -/
theorem evalIssue_keeps_Inv {issue : Issue} {s t : State} (h : evalIssue issue s = .next t) (hs : s.Inv) : t.Inv := by
  obtain ⟨i, -, rfl⟩ := evalIssue_next h
  exact deliver_Inv (s := s.activate issue.context) _ hs

/-- Settles O17: taking a round off leaves the store alone, and every issue of the round keeps it canonical. -/
theorem stepKeepsCanonicalForm : Obligations.StepKeepsCanonicalForm := by
  unfold Obligations.StepKeepsCanonicalForm
  intro s t hs h
  rcases step_next h with ⟨-, rfl⟩ | ⟨round, rest, -, -, hround⟩
  · exact hs
  · exact evalRound_induction (P := State.Inv) (fun _ _ _ => evalIssue_keeps_Inv) round _ t hround hs

/-- A write of some fields is a write of any more. -/
theorem OnlyWrites.mono {l m : List Flag} {f g : FlagsWord} (h : OnlyWrites l f g) (hlm : l ⊆ m) : OnlyWrites m f g :=
  fun b hb => h b fun x hx => hb x (hlm hx)

/-- Two writes of the same fields, one after the other. -/
theorem OnlyWrites.trans {l : List Flag} {f g h : FlagsWord} (hfg : OnlyWrites l f g) (hgh : OnlyWrites l g h) :
    OnlyWrites l f h := fun b hb => (hgh b hb).trans (hfg b hb)

/-- The flags an operation writes at its count: none at count zero, else those it owns (R18). -/
theorem onlyWrites_outputs (p : Config) (i : Instr) (f : FlagsWord) :
    OnlyWrites (if count i = 0 then [] else ownedFlags i) f (outputs p i f).flagsOut := by
  rcases Nat.eq_zero_or_pos (count i) with hc | hc
  · rw [outputs_of_count_eq_zero p f hc]
    exact onlyWrites_refl _ f
  · rw [if_neg hc.ne']
    cases hi : i.definesFullFlagSet with
    | false =>
      obtain ⟨r, cf, of, ho⟩ := outputs_of_rotate p f hi hc
      simpa [ownedFlags, hi, ho] using onlyWrites_rotateFlags f cf of
    | true =>
      obtain ⟨r, cf, of, ho⟩ := outputs_of_shift p f hi hc
      simpa [ownedFlags, hi, ho] using onlyWrites_shiftFlags f cf of r

/-- No operation owns AF. -/
theorem ownedFlags_subset (i : Instr) : ownedFlags i ⊆ [.cf, .of, .zf, .sf, .pf] := by
  cases h : i.definesFullFlagSet <;> simp [ownedFlags, h]

/-- No request writes AF or a bit the BSU does not know. -/
theorem onlyWrites_outputs_known (p : Config) (i : Instr) (f : FlagsWord) :
    OnlyWrites [.cf, .of, .zf, .sf, .pf] f (outputs p i f).flagsOut := by
  refine (onlyWrites_outputs p i f).mono ?_
  split
  · exact List.nil_subset _
  · exact ownedFlags_subset i

/-- One issue changes no other bit of any context's flags word: its own context's by its outputs, another's not at
all. -/
theorem evalIssue_onlyWrites {issue : Issue} {s t : State} (k : Nat) (h : evalIssue issue s = .next t) :
    OnlyWrites [.cf, .of, .zf, .sf, .pf] (s.flagsOf k) (t.flagsOf k) := by
  by_cases hk : issue.context = k
  · obtain ⟨i, -, rfl⟩ := evalIssue_next h
    rw [← hk, activate_deliver_flagsOf]
    exact onlyWrites_outputs_known _ i _
  · rw [State.flagsOf, State.flagsOf, evalIssue_context_ne h hk]
    exact onlyWrites_refl _ _

/-- Settles O19: no issue of a round changes such a bit in any context, so the round, one issue after the other, does
not. -/
theorem stepKeepsAfAndUnknownBits : Obligations.StepKeepsAfAndUnknownBits := by
  unfold Obligations.StepKeepsAfAndUnknownBits
  intro s t k h
  rcases step_next h with ⟨-, rfl⟩ | ⟨round, rest, -, -, hround⟩
  · exact onlyWrites_refl _ _
  · exact evalRound_induction (P := fun u => OnlyWrites [.cf, .of, .zf, .sf, .pf] (s.flagsOf k) (u.flagsOf k))
      (fun _ _ _ hi hu => hu.trans (evalIssue_onlyWrites k hi)) round _ t hround (onlyWrites_refl _ _)

/-- Settles O26: exec delivers the operation's outputs, whose flags word differs from the incoming one in the owned
fields alone. -/
theorem onlyOwnedFlagsAreWritten : Obligations.OnlyOwnedFlagsAreWritten := by
  unfold Obligations.OnlyOwnedFlagsAreWritten
  intro i s t h
  rw [exec_next h, deliver_flagsOf_active]
  exact onlyWrites_outputs Config.chosen i s.flagsIn

/-- Settles O18: the empty store is canonical, and every context reads from it as one that has issued nothing. -/
theorem resetMeetsTheModelsChoices : Obligations.ResetMeetsTheModelsChoices := by
  unfold Obligations.ResetMeetsTheModelsChoices
  have hcontext (k : Nat) : State.reset.context k = Context.reset := lookupContext_nil k
  refine ⟨⟨List.Pairwise.nil, fun _ he => absurd he List.not_mem_nil⟩, rfl, fun k => ?_⟩
  rw [State.flagsOf, State.resultOf, hcontext]
  exact ⟨rfl, rfl⟩

/-- Settles O11: the next round of a state without requests is none; reset presents none. -/
theorem nothingHappensWithoutARequest : Obligations.NothingHappensWithoutARequest := by
  unfold Obligations.NothingHappensWithoutARequest
  have idle (s : State) (h : s.rounds = []) : step s = .next s := by rw [step_eq, h]
  exact ⟨idle, idle _ rfl⟩

end Sys2Proof.Machine

/-! ### The enumeration check at the machine (spec/60_exceptions.md, R140, R146, R148) -/

namespace Sys2Proof.Machine

/-- Codes from 4 up are no width. -/
theorem ofCode_width_eq_none {n : Nat} (h : ¬ n < 4) : Width.ofCode n = none := by
  match n with
  | 0 | 1 | 2 | 3 => omega
  | n + 4 => rfl

/-- Codes from 8 up are no operation. -/
theorem ofCode_operation_eq_none {n : Nat} (h : ¬ n < 8) : Operation.ofCode n = none := by
  match n with
  | 0 | 1 | 2 | 3 | 4 | 5 | 6 | 7 => omega
  | n + 8 => rfl

/-- Codes below 4 are widths. -/
theorem ofCode_width_eq_some {n : Nat} (h : n < 4) : ∃ w, Width.ofCode n = some w := by
  match n with
  | 0 | 1 | 2 | 3 => exact ⟨_, rfl⟩
  | n + 4 => omega

/-- A bad width is the reason, whatever the operation (R146). -/
theorem decode_evaluate_of_bad_width {width : Nat} (op : Nat) (x : Word) (n : Nat) (h : ¬ width < 4) :
    decode (.evaluate width op x n) = .error .badWidth := by
  simp only [decode, ofCode_width_eq_none h]

/-- A bad operation is the reason when the width is good. -/
theorem decode_evaluate_of_bad_operation {width op : Nat} (x : Word) (n : Nat) (hw : width < 4) (h : ¬ op < 8) :
    decode (.evaluate width op x n) = .error .badOperation := by
  obtain ⟨w, hw⟩ := ofCode_width_eq_some hw
  simp only [decode, hw, ofCode_operation_eq_none h]

/-- A bad width is the only reason at the Double-Shift Engine. -/
theorem decode_evaluateDouble_of_bad_width {width : Nat} (d y : Word) (n : Nat) (right : Bool) (h : ¬ width < 4) :
    decode (.evaluateDouble width d y n right) = .error .badWidth := by
  simp only [decode, ofCode_width_eq_none h]

section Lone

variable {k : Nat} {r : Request} {rest : List (List Issue)} {s : State}

/-- A request presented alone that fails the check ends the step in the contract violation with the reason found. -/
theorem step_lone_of_decode_error (h : s.rounds = [{ context := k, request := r }] :: rest) {reason : ViolationReason}
    (hd : decode r = .error reason) : step s = .fault (.contractViolation reason) :=
  step_lone_of_error h (by simp only [evaluateRequest, hd])

end Lone

/-- Settles O5: the check looks at the width first and at the operation only when the width is good, and at nothing
else. -/
theorem badWidthReportedBeforeBadOperation : Obligations.BadWidthReportedBeforeBadOperation := by
  unfold Obligations.BadWidthReportedBeforeBadOperation
  intro k width op x d y n right rest s
  refine ⟨fun hbad => step_lone_of_decode_error rfl ?_,
    fun hw => step_lone_of_decode_error rfl (decode_evaluateDouble_of_bad_width d y n right hw)⟩
  by_cases hw : width < 4
  · rw [if_pos hw]
    exact decode_evaluate_of_bad_operation x n hw (hbad.resolve_left (not_not_intro hw))
  · rw [if_neg hw]
    exact decode_evaluate_of_bad_width op x n hw

/-- Settles O6: the first step of the run is the fault, and a run ends at its first fault. -/
theorem faultEndsEveryRun : Obligations.FaultEndsEveryRun := by
  unfold Obligations.FaultEndsEveryRun
  intro k r rest s hs hl
  obtain ⟨reason, hd⟩ := (decode_error_iff_not_legal r).mpr hl
  exact ⟨reason, hd, fun m => run_succ_of_fault m (step_lone_of_decode_error hs hd)⟩

/-- Settles O10: a round of one request is that request's evaluation, which is `exec` once the check has passed. -/
theorem stepEvaluatesTheDecodedRequest : Obligations.StepEvaluatesTheDecodedRequest := by
  unfold Obligations.StepEvaluatesTheDecodedRequest
  intro k r rest i s hs hd
  rw [step_lone hs, evalIssue, hd]
  rfl

/-- No round is refused while it is evaluated. -/
theorem evalRound_not_refused (round : List Issue) (s : State) (q : Refusal) : evalRound round s ≠ .refused q := by
  induction round generalizing s with
  | nil => simp
  | cons issue rest ih =>
    cases hi : evalIssue issue s with
    | next u => rw [evalRound_cons_of_next hi]; exact ih u
    | fault f => simp [evalRound, hi]
    | refused q' => exact absurd hi (evalIssue_not_refused issue s q')

/-- Settles O9: with nothing presented a step answers a next state, a round that names a flags word twice is refused
before it is evaluated, and no other round is refused. -/
theorem refusesExactlyASharedFlagsWord : Obligations.RefusesExactlyASharedFlagsWord := by
  unfold Obligations.RefusesExactlyASharedFlagsWord
  intro s q
  cases hr : s.rounds with
  | nil => simp [step_eq, hr]
  | cons round rest =>
    cases hs : sharesFlagsWord round with
    | false => simp [step_of_rounds_cons hr hs, evalRound_not_refused, hs]
    | true =>
      have hstep : step s = .refused .flagsWordShared := by simp [step_eq, hr, hs]
      simp [hstep, hs, eq_comm (a := q)]

/-- A legal state steps to a legal state: its next round is legal and conflict-free, and the rest stays as it is. -/
theorem step_of_legal {s : State} (h : s.legal) : ∃ t, step s = .next t ∧ t.legal := by
  cases hr : s.rounds with
  | nil => exact ⟨s, by rw [step_eq, hr], h⟩
  | cons round rest =>
    rw [State.legal, hr] at h
    obtain ⟨⟨hshare, hlegal⟩, hrest⟩ := List.forall_mem_cons.mp h
    obtain ⟨t, ht⟩ := evalRound_of_legal { s with rounds := rest } hlegal
    refine ⟨t, (step_of_rounds_cons hr hshare).trans ht, ?_⟩
    rw [State.legal, evalRound_rounds ht]
    exact hrest

/-- Settles O8: legality is kept by every step, and a legal state has a next state; by induction on the number of
steps. -/
theorem legalRequestsRunSafely : Obligations.LegalRequestsRunSafely := by
  unfold Obligations.LegalRequestsRunSafely
  intro s hs m
  induction m generalizing s with
  | zero => exact ⟨s, rfl⟩
  | succ m ih =>
    obtain ⟨t, ht, hlegal⟩ := step_of_legal hs
    rw [run_succ_of_next m ht]
    exact ih t hlegal

end Sys2Proof.Machine

/-! ### Requests do not interfere (spec/20_memory.md section 6, R35, R150, R168) -/

namespace Sys2Proof.Machine

/-- Settles O13: delivering outputs writes the entry of the active context alone. -/
theorem requestTouchesOnlyItsOwnContext : Obligations.RequestTouchesOnlyItsOwnContext := by
  unfold Obligations.RequestTouchesOnlyItsOwnContext
  intro i s t h
  rw [exec_next h]
  exact ⟨rfl, rfl, fun k hk => deliver_context_ne s _ hk⟩

/-- A round in which a context has no request leaves that context as it was. -/
theorem evalRound_context_ne {round : List Issue} {s t : State} {k : Nat} (h : evalRound round s = .next t)
    (hk : ∀ issue ∈ round, issue.context ≠ k) : t.context k = s.context k := by
  have hnil : issuesOf k round = [] := List.filter_eq_nil_iff.mpr fun issue hi => by simpa using hk issue hi
  obtain ⟨t', ht', hc⟩ := evalRound_issuesOf (k := k) h rfl
  rw [hnil, evalRound_nil] at ht'
  rw [← hc, Host.Outcome.next.inj ht']

/-- Settles O14: the step takes the round off and evaluates it, and of the round no request is the idle context's. -/
theorem stepLeavesIdleContextsAlone : Obligations.StepLeavesIdleContextsAlone := by
  unfold Obligations.StepLeavesIdleContextsAlone
  intro s t round rest k hr h hk
  rcases step_next h with ⟨hnil, -⟩ | ⟨round', rest', hr', -, hround⟩
  · rw [hr] at hnil
    cases hnil
  · rw [hr] at hr'
    cases hr'
    exact ⟨evalRound_rounds hround, evalRound_context_ne (s := { s with rounds := rest }) hround hk⟩

/-- A conflict-free round has at most one request of each context. -/
theorem length_issuesOf_le_one {round : List Issue} (k : Nat) (h : sharesFlagsWord round = false) :
    (issuesOf k round).length ≤ 1 := by
  have hk : ∀ c ∈ (issuesOf k round).map Issue.context, c = k := by
    simpa [issuesOf] using fun _ _ _ hk hc => hc.symm.trans hk
  have hnodup := sharesFlagsWord_issuesOf k h
  simp only [sharesFlagsWord, Bool.not_eq_false', decide_eq_true_eq] at hnodup
  rw [← List.length_map (f := Issue.context)]
  rw [List.eq_replicate_of_mem hk, List.nodup_replicate] at hnodup
  exact hnodup

/-- Reordering a round makes no two of its requests share a flags word. -/
theorem sharesFlagsWord_perm {round round' : List Issue} (h : round.Perm round') :
    sharesFlagsWord round = sharesFlagsWord round' := by
  simp only [sharesFlagsWord, (h.map Issue.context).nodup_iff]

/-- Reordering a conflict-free round leaves each context's part of it as it was. -/
theorem issuesOf_perm {round round' : List Issue} (k : Nat) (hp : round.Perm round')
    (h : sharesFlagsWord round = false) : issuesOf k round = issuesOf k round' := by
  have hpk : (issuesOf k round).Perm (issuesOf k round') := hp.filter _
  have hle := length_issuesOf_le_one k h
  match hi : issuesOf k round with
  | [] => exact (List.nil_perm.mp (hi ▸ hpk)).symm
  | [issue] => exact List.singleton_perm.mp (hi ▸ hpk)
  | _ :: _ :: _ => simp [hi] at hle

/-- Settles O16: what a context holds after a round is decided by its own part of the round, which is at most one
request and so the same in either order. -/
theorem orderWithinARoundIsImmaterial : Obligations.OrderWithinARoundIsImmaterial := by
  unfold Obligations.OrderWithinARoundIsImmaterial
  intro round round' rest s hp hs hlegal
  have hlegal' : ∀ issue ∈ round', issue.request.legal = true := fun issue hi => hlegal issue (hp.mem_iff.mpr hi)
  obtain ⟨t, ht⟩ := evalRound_of_legal { s with rounds := rest } hlegal
  obtain ⟨t', ht'⟩ := evalRound_of_legal { s with rounds := rest } hlegal'
  refine ⟨t, t', (step_of_rounds_cons rfl hs).trans ht,
    (step_of_rounds_cons rfl (sharesFlagsWord_perm hp ▸ hs)).trans ht', ?_, fun k => ?_⟩
  · rw [evalRound_rounds ht, evalRound_rounds ht']
  · obtain ⟨u, hu, huc⟩ := evalRound_issuesOf (k := k) ht rfl
    obtain ⟨u', hu', huc'⟩ := evalRound_issuesOf (k := k) ht' rfl
    rw [issuesOf_perm k hp hs, hu'] at hu
    rw [← huc, ← huc', Host.Outcome.next.inj hu]

end Sys2Proof.Machine

/-! ### Masks, operands and counts (spec/10_state.md, spec/40_common_evaluate.md, R62 to R65) -/

namespace Sys2Proof.Machine

/-- Settles O20: each value mask is `2^N - 1`, and masking the count with 31 or 63 is a remainder. -/
theorem widthTable : Obligations.WidthTable := by
  unfold Obligations.WidthTable
  simp only [valueMask_eq]
  exact ⟨rfl, rfl, rfl, rfl, effectiveCount_eq⟩

/-- A container of a width's pattern holds the pattern's number. -/
@[simp] theorem toNat_container_width {w : Width} (r : BitVec w.bits) : (container r).toNat = r.toNat :=
  container_toNat (bits_le_64 w) r

/-- Masking with the value mask is taking the remainder by `2^N`. -/
theorem and_valueMask (w : Width) (x : Nat) : x &&& valueMask w = x % 2 ^ w.bits := by
  rw [valueMask_eq, Nat.and_two_pow_sub_one_eq_mod]

theorem masked_lt (w : Width) (x : Word) : masked w x < 2 ^ w.bits := by
  rw [← operand_toNat]
  exact (operand w x).isLt

/-- A bit of the masked operand is that bit of the N-bit pattern. -/
theorem testBit_masked (w : Width) (x : Word) (b : Nat) : (masked w x).testBit b = (operand w x).getLsbD b := by
  rw [← operand_toNat, BitVec.testBit_toNat]

/-- Bit N-1 of the masked operand is the sign bit of the N-bit pattern. -/
theorem testBit_masked_last (w : Width) (x : Word) : (masked w x).testBit (w.bits - 1) = (operand w x).msb := by
  rw [msb_eq_testBit_toNat, operand_toNat]

/-- A word with the value mask applied, as its caller should present it, is its masked value. -/
theorem toNat_and_valueMask (w : Width) (x : Word) : (x &&& BitVec.ofNat 64 (valueMask w)).toNat = masked w x := by
  have hmask : valueMask w < 2 ^ 64 := by cases w <;> decide
  rw [BitVec.toNat_and, BitVec.toNat_ofNat, Nat.mod_eq_of_lt hmask, masked]

theorem fits_iff {w : Width} {x : Word} : w.fits x = true ↔ x.toNat < 2 ^ w.bits := decide_eq_true_iff

theorem fits_and_valueMask (w : Width) (x : Word) : w.fits (x &&& BitVec.ofNat 64 (valueMask w)) = true := by
  rw [fits_iff, toNat_and_valueMask]
  exact masked_lt w x

theorem masked_of_fits {w : Width} {x : Word} (h : w.fits x = true) : masked w x = x.toNat := by
  rw [masked_eq, Nat.mod_eq_of_lt (fits_iff.mp h)]

theorem and_valueMask_of_fits {w : Width} {x : Word} (h : w.fits x = true) :
    x &&& BitVec.ofNat 64 (valueMask w) = x :=
  BitVec.eq_of_toNat_eq (by rw [toNat_and_valueMask, masked_of_fits h])

/-- An operand is read through its low N bits alone (R64). -/
theorem operand_and_valueMask (w : Width) (x : Word) :
    operand w (x &&& BitVec.ofNat 64 (valueMask w)) = operand w x := by
  apply BitVec.eq_of_toNat_eq
  rw [operand_toNat, operand_toNat, masked_eq w (x &&& _), toNat_and_valueMask, Nat.mod_eq_of_lt (masked_lt w x)]

theorem evaluateWith_and_valueMask (w : Width) (x : Word) (n : Nat) (f : FlagsWord)
    (rule : BitVec w.bits → Nat → BitVec w.bits × FlagsWord) :
    evaluateWith w (x &&& BitVec.ofNat 64 (valueMask w)) n f rule = evaluateWith w x n f rule := by
  simp only [evaluateWith, operand_and_valueMask]

/-- A request with its operands masked has the outputs of the request. -/
theorem outputs_maskOperands (p : Config) (i : Instr) (f : FlagsWord) :
    outputs p i.maskOperands f = outputs p i f := by
  cases i with
  | rol | ror | rcl | rcr | shl | shr | sal | sar => exact evaluateWith_and_valueMask ..
  | shld w d s n =>
    simp only [Instr.maskOperands, outputs, shldOutputs, evaluateWith_and_valueMask, operand_and_valueMask]
  | shrd w d s n =>
    simp only [Instr.maskOperands, outputs, shrdOutputs, evaluateWith_and_valueMask, operand_and_valueMask]

theorem wf_maskOperands (i : Instr) : i.maskOperands.wf = true := by
  cases i with
  | rol | ror | rcl | rcr | shl | shr | sal | sar => exact fits_and_valueMask ..
  | shld | shrd => simp [Instr.maskOperands, Instr.wf, fits_and_valueMask]

theorem maskOperands_of_wf {i : Instr} (h : i.wf = true) : i.maskOperands = i := by
  cases i with
  | rol | ror | rcl | rcr | shl | shr | sal | sar =>
    simp only [Instr.maskOperands, and_valueMask_of_fits (show Width.fits _ _ = true from h)]
  | shld | shrd =>
    obtain ⟨hd, hs⟩ := Bool.and_eq_true_iff.mp h
    simp only [Instr.maskOperands, and_valueMask_of_fits hd, and_valueMask_of_fits hs]

/-- Settles O22: every operation reads its operands masked, and its result is an N-bit pattern in its container. -/
theorem bitsAboveTheWidthAreIgnored : Obligations.BitsAboveTheWidthAreIgnored := by
  unfold Obligations.BitsAboveTheWidthAreIgnored
  intro i s
  refine ⟨wf_maskOperands i, maskOperands_of_wf, ?_, _, exec_eq i s, ?_⟩
  · rw [exec_eq, exec_eq, outputs_maskOperands]
  · obtain ⟨r, hr⟩ := outputs_result_eq_container Config.chosen i s.flagsIn
    rw [deliver_resultOf_active, hr, fits_iff, toNat_container_width]
    exact r.isLt

theorem fits_target_of_wf {i : Instr} (h : i.wf = true) : i.width.fits i.target = true := by
  cases i with
  | rol | ror | rcl | rcr | shl | shr | sal | sar => exact h
  | shld | shrd => exact (Bool.and_eq_true_iff.mp h).left

/-- Settles O23: at count zero the skeleton returns the masked operand and the flags word it was given. -/
theorem zeroCountChangesNothing : Obligations.ZeroCountChangesNothing := by
  unfold Obligations.ZeroCountChangesNothing
  intro i s hc
  have hmasked : (container (operand i.width i.target)).toNat = masked i.width i.target := by simp
  refine ⟨_, exec_eq i s, ?_⟩
  rw [deliver_resultOf_active, deliver_flagsOf_active, outputs_of_count_eq_zero _ _ hc]
  exact ⟨hmasked, fun hwf => BitVec.eq_of_toNat_eq (hmasked.trans (masked_of_fits (fits_target_of_wf hwf))), rfl⟩

/-- A rotate at a non-zero count, from two flags words that agree on CF where the operation reads it: one result, one
CF, and at count 1 one OF. -/
theorem outputs_of_rotate_pair (p : Config) {i : Instr} {f g : FlagsWord} (hi : i.definesFullFlagSet = false)
    (hc : 1 ≤ count i) (hcf : i.carryChained = true → getFlag f .cf = getFlag g .cf) :
    ∃ (r : BitVec i.width.bits) (cf of of' : Bool),
      outputs p i f = { result := container r, flagsOut := rotateFlags f cf of } ∧
        outputs p i g = { result := container r, flagsOut := rotateFlags g cf of' } ∧ (count i = 1 → of = of') := by
  cases i with
  | rol | ror =>
    refine ⟨_, _, _, _, evaluateWith_pos hc, evaluateWith_pos hc, fun h => ?_⟩
    exact (if_pos h).trans (if_pos h).symm
  | rcl w x n =>
    have hg : outputs p (.rcl w x n) g = _ := evaluateWith_pos hc
    simp only [carryLeftRule, ← hcf rfl] at hg
    refine ⟨_, _, _, _, evaluateWith_pos hc, hg, fun h => ?_⟩
    exact (if_pos h).trans (if_pos h).symm
  | rcr w x n =>
    have hg : outputs p (.rcr w x n) g = _ := evaluateWith_pos hc
    simp only [carryRightRule, ← hcf rfl] at hg
    refine ⟨_, _, _, _, evaluateWith_pos hc, hg, fun h => ?_⟩
    exact (if_pos h).trans (if_pos h).symm
  | shl | shr | sal | sar | shld | shrd => cases hi

/-- A shift at a non-zero count, from any two flags words: one result, one CF, and at count 1 one OF. -/
theorem outputs_of_shift_pair (p : Config) {i : Instr} (f g : FlagsWord) (hi : i.definesFullFlagSet = true)
    (hc : 1 ≤ count i) :
    ∃ (r : BitVec i.width.bits) (cf of of' : Bool),
      outputs p i f = { result := container r, flagsOut := shiftFlags f cf of r } ∧
        outputs p i g = { result := container r, flagsOut := shiftFlags g cf of' r } ∧ (count i = 1 → of = of') := by
  cases i with
  | rol | ror | rcl | rcr => cases hi
  | shl | shr | sal | sar | shld | shrd =>
    refine ⟨_, _, _, _, evaluateWith_pos hc, evaluateWith_pos hc, fun h => ?_⟩
    exact (if_pos h).trans (if_pos h).symm

/-- Settles O27: at count zero the result is the masked operand under any flags word; above zero the result and the
owned flags are built from the operands, the count and, in a carry rotate, CF. -/
theorem onlyCarryRotatesReadTheFlags : Obligations.OnlyCarryRotatesReadTheFlags := by
  unfold Obligations.OnlyCarryRotatesReadTheFlags
  intro p i f g hcf
  rcases Nat.eq_zero_or_pos (count i) with hc | hc
  · rw [outputs_of_count_eq_zero p f hc, outputs_of_count_eq_zero p g hc]
    exact ⟨rfl, fun h => by omega⟩
  · cases hi : i.definesFullFlagSet with
    | false =>
      obtain ⟨r, cf, of, of', hf, hg, hof⟩ := outputs_of_rotate_pair p hi hc hcf
      simp only [hf, hg, ownedFlags, hi, getFlag_rotateFlags, true_and]
      intro _ x hx hx1
      rcases List.mem_pair.mp hx with rfl | rfl
      · rfl
      · exact hof (hx1 rfl)
    | true =>
      obtain ⟨r, cf, of, of', hf, hg, hof⟩ := outputs_of_shift_pair p f g hi hc
      simp only [hf, hg, ownedFlags, hi, getFlag_shiftFlags, true_and, if_true]
      intro _ x hx hx1
      cases x with
      | cf | zf | sf | pf => rfl
      | of => exact hof (hx1 rfl)
      | af => simp at hx

end Sys2Proof.Machine

/-! ### Shifts and rotates at a non-zero count (spec/40_common_evaluate.md, R60, R66, R67) -/

namespace Sys2Proof.Machine

section Outputs

variable (p : Config) {w : Width} (x y : Word) {n : Nat} (f : FlagsWord)

/-- The result of an operation whose rule is the identity at count zero is its rule's result at every count. -/
theorem evaluateWith_result {rule : BitVec w.bits → Nat → BitVec w.bits × FlagsWord}
    (h0 : (rule (operand w x) 0).1 = operand w x) :
    (evaluateWith w x n f rule).result = container (rule (operand w x) (effectiveCount w n)).1 := by
  rcases Nat.eq_zero_or_pos (effectiveCount w n) with hc | hc
  · rw [evaluateWith_zero hc, hc, h0]
  · rw [evaluateWith_pos hc]

theorem shlOutputs_of_pos (hc : 1 ≤ effectiveCount w n) :
    shlOutputs p w x n f =
      let v := operand w x
      let c := effectiveCount w n
      { result := container (v <<< c)
        flagsOut := shiftFlags f (leftCarry v c)
          (if c = 1 then (v <<< c).msb ^^ leftCarry v c else ofSingle p w .shl v c f) (v <<< c) } :=
  evaluateWith_pos hc

theorem shrOutputs_of_pos (hc : 1 ≤ effectiveCount w n) :
    shrOutputs p w x n f =
      let v := operand w x
      let c := effectiveCount w n
      { result := container (v >>> c)
        flagsOut := shiftFlags f (rightCarry v c) (if c = 1 then v.msb else ofSingle p w .shr v c f) (v >>> c) } :=
  evaluateWith_pos hc

theorem sarOutputs_of_pos (hc : 1 ≤ effectiveCount w n) :
    sarOutputs p w x n f =
      let v := operand w x
      let c := effectiveCount w n
      { result := container (v.sshiftRight c)
        flagsOut := shiftFlags f (arithmeticCarry v c) (if c = 1 then false else ofSingle p w .sar v c f)
          (v.sshiftRight c) } :=
  evaluateWith_pos hc

theorem rolOutputs_of_pos (hc : 1 ≤ effectiveCount w n) :
    rolOutputs p w x n f =
      let v := operand w x
      let c := effectiveCount w n
      let r := rotateLeftBits v c
      { result := container r
        flagsOut := rotateFlags f (r.getLsbD 0)
          (if c = 1 then r.msb ^^ r.getLsbD 0 else ofSingle p w .rol v c f) } :=
  evaluateWith_pos hc

theorem rorOutputs_of_pos (hc : 1 ≤ effectiveCount w n) :
    rorOutputs p w x n f =
      let v := operand w x
      let c := effectiveCount w n
      let r := rotateRightBits v c
      { result := container r
        flagsOut := rotateFlags f r.msb
          (if c = 1 then rorOverflow p.rorOf1 v r r.msb else ofSingle p w .ror v c f) } :=
  evaluateWith_pos hc

theorem rclOutputs_of_pos (hc : 1 ≤ effectiveCount w n) :
    rclOutputs p w x n f =
      let v := operand w x
      let c := effectiveCount w n
      let ring := ringLeft (getFlag f .cf, v) c
      { result := container ring.2
        flagsOut := rotateFlags f ring.1 (if c = 1 then ring.2.msb ^^ ring.1 else ofSingle p w .rcl v c f) } :=
  evaluateWith_pos hc

theorem rcrOutputs_of_pos (hc : 1 ≤ effectiveCount w n) :
    rcrOutputs p w x n f =
      let v := operand w x
      let c := effectiveCount w n
      let ring := ringRight (getFlag f .cf, v) c
      { result := container ring.2
        flagsOut := rotateFlags f ring.1 (if c = 1 then v.msb ^^ ring.2.msb else ofSingle p w .rcr v c f) } :=
  evaluateWith_pos hc

theorem shldOutputs_of_pos (hc : 1 ≤ effectiveCount w n) :
    shldOutputs p w x y n f =
      let d := operand w x
      let s := operand w y
      let c := effectiveCount w n
      let o := shldPair p w d s c
      { result := container o.1
        flagsOut := shiftFlags f o.2 (if c = 1 then d.msb ^^ o.1.msb else ofDouble p w false d s c f) o.1 } :=
  evaluateWith_pos hc

theorem shrdOutputs_of_pos (hc : 1 ≤ effectiveCount w n) :
    shrdOutputs p w x y n f =
      let d := operand w x
      let s := operand w y
      let c := effectiveCount w n
      let o := shrdPair p w d s c
      { result := container o.1
        flagsOut := shiftFlags f o.2 (if c = 1 then d.msb ^^ o.1.msb else ofDouble p w true d s c f) o.1 } :=
  evaluateWith_pos hc

/-- SAL has the outputs of SHL, the open OF included (R81). -/
theorem salOutputs_eq : salOutputs p w x n f = shlOutputs p w x n f := rfl

end Outputs

section Delivery

variable (i : Instr) (s : State) {w : Width} {r : BitVec w.bits} {cf of : Bool}

/-- What `exec` leaves with the calling context of a shift whose outputs are known. -/
theorem exec_of_shift (h : outputs Config.chosen i s.flagsIn =
      { result := container r, flagsOut := shiftFlags s.flagsIn cf of r }) :
    ∃ t, exec i s = .next t ∧ (t.resultOf s.active).toNat = r.toNat ∧ getFlag (t.flagsOf s.active) .cf = cf ∧
      getFlag (t.flagsOf s.active) .of = of ∧
      SzpOf (t.flagsOf s.active) (t.resultOf s.active).toNat w.bits ∧
      OnlyWrites [.cf, .of, .zf, .sf, .pf] s.flagsIn (t.flagsOf s.active) := by
  refine ⟨_, exec_eq i s, ?_⟩
  rw [deliver_resultOf_active, deliver_flagsOf_active, h]
  simp only [toNat_container_width, true_and]
  exact ⟨getFlag_shiftFlags .., getFlag_shiftFlags .., szpOf_shiftFlags ..,
    onlyWrites_shiftFlags _ _ _ _⟩

/-- What `exec` leaves with the calling context of a rotate whose outputs are known. -/
theorem exec_of_rotate (h : outputs Config.chosen i s.flagsIn =
      { result := container r, flagsOut := rotateFlags s.flagsIn cf of }) :
    ∃ t, exec i s = .next t ∧ (t.resultOf s.active).toNat = r.toNat ∧ getFlag (t.flagsOf s.active) .cf = cf ∧
      getFlag (t.flagsOf s.active) .of = of ∧ OnlyWrites [.cf, .of] s.flagsIn (t.flagsOf s.active) := by
  refine ⟨_, exec_eq i s, ?_⟩
  rw [deliver_resultOf_active, deliver_flagsOf_active, h]
  simp only [toNat_container_width, true_and]
  exact ⟨getFlag_rotateFlags .., getFlag_rotateFlags .., onlyWrites_rotateFlags _ _ _⟩

end Delivery

end Sys2Proof.Machine

/-! ### Shifts (spec/41_shifts.md, R80 to R84) -/

namespace Sys2Proof.Machine

section Shifts

variable {p : Config} {w : Width} {x : Word} {n : Nat} {f : FlagsWord}

theorem toNat_operand_shiftLeft (c : Nat) : (operand w x <<< c).toNat = (masked w x <<< c) &&& valueMask w := by
  rw [BitVec.toNat_shiftLeft, operand_toNat, and_valueMask]

theorem toNat_operand_shiftRight (c : Nat) : (operand w x >>> c).toNat = masked w x >>> c := by
  rw [BitVec.toNat_ushiftRight, operand_toNat]

/-- The signed value of an operand is that of its N-bit pattern. -/
theorem signedValue_eq_toInt : signedValue w x = (operand w x).toInt := by
  rw [signedValue, testBit_masked_last, BitVec.toInt_eq_msb_cond, operand_toNat]
  push_cast
  rfl

/-- The number of an N-bit pattern is its signed value modulo `2^N`. -/
theorem toNat_eq_toInt_emod {m : Nat} (r : BitVec m) : (r.toNat : Int) = r.toInt % 2 ^ m := by
  have h := BitVec.toNat_ofInt (n := m) r.toInt
  rw [BitVec.ofInt_toInt] at h
  rw [h, Int.toNat_of_nonneg (Int.emod_nonneg _ (by positivity))]
  push_cast
  rfl

/-- An arithmetic right shift divides the signed value, rounding down (R83). -/
theorem toNat_operand_sshiftRight (c : Nat) :
    (((operand w x).sshiftRight c).toNat : Int) = signedValue w x / 2 ^ c % 2 ^ w.bits := by
  rw [toNat_eq_toInt_emod, BitVec.toInt_sshiftRight, signedValue_eq_toInt, Int.shiftRight_eq_div_pow]
  push_cast
  rfl

theorem leftCarry_operand (c : Nat) :
    leftCarry (operand w x) c = if c ≤ w.bits then (masked w x).testBit (w.bits - c) else false := by
  rw [leftCarry, testBit_masked]

theorem rightCarry_operand (c : Nat) :
    rightCarry (operand w x) c = if c ≤ w.bits then (masked w x).testBit (c - 1) else false := by
  rw [rightCarry, testBit_masked]

theorem arithmeticCarry_operand (c : Nat) :
    arithmeticCarry (operand w x) c = (masked w x).testBit (min (c - 1) (w.bits - 1)) := by
  rw [arithmeticCarry, testBit_masked]

/-- The result of SHL at every count, zero included. -/
theorem shlOutputs_result : (shlOutputs p w x n f).result = container (operand w x <<< effectiveCount w n) :=
  evaluateWith_result x f (BitVec.shiftLeft_zero _)

/-- The result of SHR at every count, zero included. -/
theorem shrOutputs_result : (shrOutputs p w x n f).result = container (operand w x >>> effectiveCount w n) :=
  evaluateWith_result x f (BitVec.ushiftRight_zero _)

/-- The result of SAR at every count, zero included. -/
theorem sarOutputs_result :
    (sarOutputs p w x n f).result = container ((operand w x).sshiftRight (effectiveCount w n)) :=
  evaluateWith_result x f BitVec.sshiftRight_zero

end Shifts

/-- Settles O31: the result and the carry of the N-bit shift, said over numbers. -/
theorem shlResultAndFlags : Obligations.ShlResultAndFlags := by
  unfold Obligations.ShlResultAndFlags
  intro w value n s hc
  dsimp only
  obtain ⟨t, ht, hr, hcf, hof, hszp, hw⟩ := exec_of_shift (.shl w value n) s (shlOutputs_of_pos _ _ _ hc)
  refine ⟨t, ht, ?_, ?_, ?_, hszp, hw⟩
  · rw [hr, toNat_operand_shiftLeft]
  · rw [hcf, leftCarry_operand]
  · rw [hof, hr, hcf, msb_eq_testBit_toNat]

/-- Settles O33: the result and the carry of the N-bit shift, said over numbers. -/
theorem shrResultAndFlags : Obligations.ShrResultAndFlags := by
  unfold Obligations.ShrResultAndFlags
  intro w value n s hc
  dsimp only
  obtain ⟨t, ht, hr, hcf, hof, hszp, hw⟩ := exec_of_shift (.shr w value n) s (shrOutputs_of_pos _ _ _ hc)
  refine ⟨t, ht, ?_, ?_, ?_, hszp, hw⟩
  · rw [hr, toNat_operand_shiftRight]
  · rw [hcf, rightCarry_operand]
  · rw [hof, testBit_masked_last]

/-- Settles O34: an arithmetic shift of the N-bit pattern divides its signed value, and the bit it reads for CF stops
at the sign. -/
theorem sarResultAndFlags : Obligations.SarResultAndFlags := by
  unfold Obligations.SarResultAndFlags
  intro w value n s hc
  dsimp only
  obtain ⟨t, ht, hr, hcf, hof, hszp, hw⟩ := exec_of_shift (.sar w value n) s (sarOutputs_of_pos _ _ _ hc)
  refine ⟨t, ht, ?_, ?_, hof, hszp, hw⟩
  · rw [hr, toNat_operand_sshiftRight]
  · rw [hcf, arithmeticCarry_operand]

/-- Settles O32: SAL's outputs are SHL's by the same rule, its open OF by the constraint on the parameter; the frame and
the result are those of any request and of SHL. -/
theorem salIsShl : Obligations.SalIsShl := by
  unfold Obligations.SalIsShl
  intro w value n s
  refine ⟨rfl, fun _ _ _ _ => rfl, decodeLine_evalSel w .sal value n, _, exec_eq _ s, ?_, ?_⟩
  · rw [deliver_flagsOf_active]
    exact onlyWrites_outputs_known Config.chosen _ s.flagsIn
  · rw [deliver_resultOf_active, outputs, salOutputs_eq, shlOutputs_result, toNat_container_width,
      toNat_operand_shiftLeft]

section LastBitOut

variable {m : Nat} (v : BitVec m)

theorem shiftLeft_one_iterate (c : Nat) : (fun b : BitVec m => b <<< 1)^[c] v = v <<< c := by
  induction c with
  | zero => simp
  | succ c ih => rw [Function.iterate_succ_apply', ih, BitVec.shiftLeft_add]

theorem shiftRight_one_iterate (c : Nat) : (fun b : BitVec m => b >>> 1)^[c] v = v >>> c := by
  induction c with
  | zero => simp
  | succ c ih => rw [Function.iterate_succ_apply', ih, BitVec.shiftRight_add]

theorem sshiftRight_one_iterate (c : Nat) : (fun b : BitVec m => b.sshiftRight 1)^[c] v = v.sshiftRight c := by
  induction c with
  | zero => simp
  | succ c ih => rw [Function.iterate_succ_apply', ih, BitVec.sshiftRight_add]

/-- CF of a left shift is the high bit after all steps but the last, also above the width (R84). -/
theorem leftCarry_eq_msb_shiftLeft {c : Nat} (hc : 1 ≤ c) : leftCarry v c = (v <<< (c - 1)).msb := by
  rw [leftCarry, BitVec.msb_eq_getLsbD_last, BitVec.getLsbD_shiftLeft]
  by_cases h : c ≤ m
  · have hi : m - 1 - (c - 1) = m - c := by omega
    have h1 : m - 1 < m := by omega
    have h2 : ¬ m - 1 < c - 1 := by omega
    simp [h, hi, h1, h2]
  · simp only [h, if_false]
    by_cases hm : m - 1 < m
    · have h2 : m - 1 < c - 1 := by omega
      simp [h2]
    · simp [hm]

/-- CF of a logical right shift is the low bit after all steps but the last, also above the width (R84). -/
theorem rightCarry_eq_shiftRight {c : Nat} (hc : 1 ≤ c) : rightCarry v c = (v >>> (c - 1)).getLsbD 0 := by
  rw [rightCarry, BitVec.getLsbD_ushiftRight, Nat.add_zero]
  split
  · rfl
  · rw [BitVec.getLsbD_of_ge v (c - 1) (by omega)]

/-- CF of an arithmetic right shift is the low bit after all steps but the last, also above the width (R84). -/
theorem arithmeticCarry_eq_sshiftRight (hm : 0 < m) (c : Nat) :
    arithmeticCarry v c = (v.sshiftRight (c - 1)).getLsbD 0 := by
  rw [arithmeticCarry, BitVec.getLsbD_sshiftRight, Nat.add_zero, BitVec.msb_eq_getLsbD_last]
  by_cases h : c - 1 < m
  · have hmin : min (c - 1) (m - 1) = c - 1 := by omega
    simp [h, hmin, hm.ne']
  · have hmin : min (c - 1) (m - 1) = m - 1 := by omega
    simp [h, hmin, hm.ne']

end LastBitOut

/-- Settles O35: `c - 1` one-bit shifts are one shift by `c - 1`, and the bit CF takes is that shift's outgoing bit. -/
theorem shiftCarryIsTheLastBitOut : Obligations.ShiftCarryIsTheLastBitOut := by
  unfold Obligations.ShiftCarryIsTheLastBitOut
  intro w value n s hc
  dsimp only
  rw [shiftLeft_one_iterate, shiftRight_one_iterate, sshiftRight_one_iterate, ← leftCarry_eq_msb_shiftLeft _ hc,
    ← rightCarry_eq_shiftRight _ hc, ← arithmeticCarry_eq_sshiftRight _ (bits_pos w)]
  obtain ⟨t, ht, -, htcf, -⟩ := exec_of_shift (.shl w value n) s (shlOutputs_of_pos _ _ _ hc)
  obtain ⟨x, hx, -, hxcf, -⟩ := exec_of_shift (.shr w value n) s (shrOutputs_of_pos _ _ _ hc)
  obtain ⟨y, hy, -, hycf, -⟩ := exec_of_shift (.sar w value n) s (sarOutputs_of_pos _ _ _ hc)
  exact ⟨t, t, x, y, ht, ht, hx, hy, htcf, htcf, hxcf, hycf⟩

/-- Settles O36: an N-bit left shift is a product modulo `2^N`, a right shift a quotient; count zero is the shift by
zero. -/
theorem shiftsMultiplyAndDivide : Obligations.ShiftsMultiplyAndDivide := by
  unfold Obligations.ShiftsMultiplyAndDivide
  intro w value n s
  refine ⟨_, _, exec_eq _ s, exec_eq _ s, ?_, ?_⟩
  · rw [deliver_resultOf_active, outputs, shlOutputs_result, toNat_container_width, toNat_operand_shiftLeft,
      and_valueMask, Nat.shiftLeft_eq, masked_eq, Nat.mod_mul_mod]
  · rw [deliver_resultOf_active, outputs, shrOutputs_result, toNat_container_width, toNat_operand_shiftRight,
      Nat.shiftRight_eq_div_pow, masked_eq]

/-- A bit of a container below the width is that bit of the pattern. -/
theorem getLsbD_container {w : Width} (r : BitVec w.bits) (b : Nat) : (container r).getLsbD b = r.getLsbD b := by
  rw [← BitVec.testBit_toNat, ← BitVec.testBit_toNat, toNat_container_width]

/-- Settles O37: a bit vacated by a right shift is zero in the logical shift and the sign bit in the arithmetic one. -/
theorem rightShiftsFillByTheirAttribute : Obligations.RightShiftsFillByTheirAttribute := by
  unfold Obligations.RightShiftsFillByTheirAttribute
  rintro w value n s i (rfl | rfl) -
  · refine ⟨_, exec_eq _ s, fun b hb _ => ?_⟩
    rw [deliver_resultOf_active, outputs, shrOutputs_result, getLsbD_container, BitVec.getLsbD_ushiftRight,
      BitVec.getLsbD_of_ge _ _ (by omega)]
    rfl
  · refine ⟨_, exec_eq _ s, fun b hb hbw => ?_⟩
    rw [deliver_resultOf_active, outputs, sarOutputs_result, getLsbD_container, BitVec.getLsbD_sshiftRight,
      if_neg (by omega), testBit_masked_last]
    simp [Instr.arithmetic, hbw]

end Sys2Proof.Machine

/-! ### Rotates of a bit pattern, and rotates of an operand (spec/42_rotates.md, R100 to R103) -/

namespace Sys2Proof.Machine

section Patterns

variable {m : Nat} (v : BitVec m)

theorem rotateLeftBits_zero : rotateLeftBits v 0 = v := by
  simp [rotateLeftBits]

/-- The model's rotate left is the library's. -/
theorem rotateLeftBits_eq (c : Nat) : rotateLeftBits v c = v.rotateLeft c := by
  rw [rotateLeftBits, BitVec.rotateLeft_def]
  by_cases hk : c % m = 0
  · simp [hk, BitVec.ushiftRight_eq_zero]
  · simp [hk]

theorem rotateRightBits_zero : rotateRightBits v 0 = v := by
  simp [rotateRightBits]

/-- The model's rotate right is the library's. -/
theorem rotateRightBits_eq (c : Nat) : rotateRightBits v c = v.rotateRight c := by
  rw [rotateRightBits, BitVec.rotateRight_def]
  by_cases hk : c % m = 0
  · simp [hk, BitVec.shiftLeft_eq_zero]
  · simp [hk]

/-- Two rotates to the left add up. -/
theorem rotateLeft_rotateLeft (a b : Nat) : (v.rotateLeft a).rotateLeft b = v.rotateLeft (a + b) := by
  apply BitVec.eq_of_getMsbD_eq
  intro i hi
  have hlt : (b + i) % m < m := Nat.mod_lt _ (by omega)
  simp only [BitVec.getMsbD_rotateLeft, hi, hlt, decide_true, Bool.true_and, Nat.add_mod_mod, Nat.add_assoc]

/-- A rotate to the right is the complementary rotate to the left. -/
theorem rotateRight_eq_rotateLeft (a : Nat) : v.rotateRight a = v.rotateLeft (m - a % m) := by
  by_cases hk : a % m = 0
  · rw [← BitVec.rotateRight_mod_eq_rotateRight, ← BitVec.rotateLeft_mod_eq_rotateLeft, hk, Nat.sub_zero,
      Nat.mod_self]
    simp [BitVec.rotateLeft_def, BitVec.rotateRight_def, BitVec.ushiftRight_eq_zero, BitVec.shiftLeft_eq_zero]
  · by_cases hm : m = 0
    · subst hm
      exact Subsingleton.elim _ _
    · have hlt := Nat.mod_lt a (Nat.pos_of_ne_zero hm)
      have hk' : (m - a % m) % m = m - a % m := Nat.mod_eq_of_lt (by omega)
      have hsub : m - (m - a % m) = a % m := by omega
      rw [BitVec.rotateRight_def, BitVec.rotateLeft_def, hk', hsub, BitVec.or_comm]

/-- Rotating by a complement and back is rotating by a multiple of the width. -/
theorem add_sub_mod_mod_self (hm : 0 < m) (a : Nat) : (a + (m - a % m)) % m = 0 := by
  have hdiv := Nat.div_add_mod a m
  have hlt := Nat.mod_lt a hm
  have hmul : a + (m - a % m) = m * (a / m + 1) := by
    rw [Nat.mul_add]
    omega
  rw [hmul, Nat.mul_mod_right]

theorem rotateLeft_of_mod_eq_zero {c : Nat} (hc : c % m = 0) : v.rotateLeft c = v := by
  rw [← rotateLeftBits_eq, rotateLeftBits, if_pos hc]

theorem rotateRight_of_mod_eq_zero {c : Nat} (hc : c % m = 0) : v.rotateRight c = v := by
  rw [← rotateRightBits_eq, rotateRightBits, if_pos hc]

/-- A rotate to the right undoes the rotate to the left by the same count. -/
theorem rotateRight_rotateLeft (hm : 0 < m) (a : Nat) : (v.rotateLeft a).rotateRight a = v := by
  rw [rotateRight_eq_rotateLeft, rotateLeft_rotateLeft, rotateLeft_of_mod_eq_zero v (add_sub_mod_mod_self hm a)]

/-- A rotate to the left undoes the rotate to the right by the same count. -/
theorem rotateLeft_rotateRight (hm : 0 < m) (a : Nat) : (v.rotateRight a).rotateLeft a = v := by
  rw [rotateRight_eq_rotateLeft, rotateLeft_rotateLeft, Nat.add_comm,
    rotateLeft_of_mod_eq_zero v (add_sub_mod_mod_self hm a)]

/-- Two rotates to the right add up: rotating left by the sum undoes either side. -/
theorem rotateRight_rotateRight (hm : 0 < m) (a b : Nat) :
    (v.rotateRight a).rotateRight b = v.rotateRight (a + b) := by
  have hleft : ((v.rotateRight a).rotateRight b).rotateLeft (a + b) = v := by
    rw [Nat.add_comm, ← rotateLeft_rotateLeft, rotateLeft_rotateRight _ hm, rotateLeft_rotateRight _ hm]
  rw [← rotateRight_rotateLeft ((v.rotateRight a).rotateRight b) hm (a + b), hleft]

end Patterns

section Rotates

variable {p : Config} {w : Width} {x : Word} {n : Nat} {f : FlagsWord}

/-- A right shift of the masked operand stays inside the width. -/
theorem masked_shiftRight_mod (j : Nat) : (masked w x >>> j) % 2 ^ w.bits = masked w x >>> j :=
  Nat.mod_eq_of_lt (lt_of_le_of_lt (Nat.shiftRight_le _ _) (masked_lt w x))

theorem toNat_rotateLeftBits_operand (c : Nat) :
    (rotateLeftBits (operand w x) c).toNat =
      let k := c % w.bits
      if k = 0 then masked w x else ((masked w x <<< k) ||| (masked w x >>> (w.bits - k))) &&& valueMask w := by
  simp only [rotateLeftBits, apply_ite BitVec.toNat, BitVec.toNat_or, BitVec.toNat_shiftLeft,
    BitVec.toNat_ushiftRight, operand_toNat, and_valueMask, Nat.or_mod_two_pow, masked_shiftRight_mod]

theorem toNat_rotateRightBits_operand (c : Nat) :
    (rotateRightBits (operand w x) c).toNat =
      let k := c % w.bits
      if k = 0 then masked w x else ((masked w x >>> k) ||| (masked w x <<< (w.bits - k))) &&& valueMask w := by
  simp only [rotateRightBits, apply_ite BitVec.toNat, BitVec.toNat_or, BitVec.toNat_shiftLeft,
    BitVec.toNat_ushiftRight, operand_toNat, and_valueMask, Nat.or_mod_two_pow, masked_shiftRight_mod]

/-- The result of ROL at every count, zero included. -/
theorem rolOutputs_result :
    (rolOutputs p w x n f).result = container ((operand w x).rotateLeft (effectiveCount w n)) := by
  rw [← rotateLeftBits_eq]
  exact evaluateWith_result x f (rotateLeftBits_zero _)

/-- The result of ROR at every count, zero included. -/
theorem rorOutputs_result :
    (rorOutputs p w x n f).result = container ((operand w x).rotateRight (effectiveCount w n)) := by
  rw [← rotateRightBits_eq]
  exact evaluateWith_result x f (rotateRightBits_zero _)

end Rotates

/-- Settles O38: the N-bit rotate, its low bit for CF. -/
theorem rolResultAndFlags : Obligations.RolResultAndFlags := by
  unfold Obligations.RolResultAndFlags
  intro w value n s hc
  dsimp only
  obtain ⟨t, ht, hr, hcf, hof, hw⟩ := exec_of_rotate (.rol w value n) s (rolOutputs_of_pos _ _ _ hc)
  refine ⟨t, ht, ?_, ?_, ?_, hw⟩
  · rw [hr, toNat_rotateLeftBits_operand]
  · rw [hcf, hr, BitVec.testBit_toNat]
  · rw [hof, hcf, hr, msb_eq_testBit_toNat]

/-- Settles O39: the N-bit rotate, its high bit for CF; OF at count 1 by the parameter's value. -/
theorem rorResultAndFlags : Obligations.RorResultAndFlags := by
  unfold Obligations.RorResultAndFlags
  intro w value n s hc
  dsimp only
  obtain ⟨t, ht, hr, hcf, hof, hw⟩ := exec_of_rotate (.ror w value n) s (rorOutputs_of_pos _ _ _ hc)
  refine ⟨t, ht, ?_, ?_, ?_, hw⟩
  · rw [hr, toNat_rotateRightBits_operand]
  · rw [hcf, hr, msb_eq_testBit_toNat]
  · rw [hof, hcf, hr, testBit_masked_last, ← msb_eq_testBit_toNat]
    cases Config.chosen.rorOf1 <;> rfl

/-- A rotate to the left by one brings the high bit to the low end. -/
theorem getLsbD_zero_rotateLeftBits_one {m : Nat} (hm : 1 < m) (v : BitVec m) :
    (rotateLeftBits v 1).getLsbD 0 = v.msb := by
  rw [rotateLeftBits_eq, BitVec.getLsbD_rotateLeft, Nat.mod_eq_of_lt hm, BitVec.msb_eq_getLsbD_last]
  rfl

/-- A rotate to the right by one brings the low bit to the high end. -/
theorem msb_rotateRightBits_one {m : Nat} (hm : 1 < m) (v : BitVec m) : (rotateRightBits v 1).msb = v.getLsbD 0 := by
  have hlast : m - 1 < m := by omega
  rw [rotateRightBits_eq, BitVec.msb_eq_getLsbD_last, BitVec.getLsbD_rotateRight, Nat.mod_eq_of_lt hm]
  simp [hlast]

theorem one_lt_bits (w : Width) : 1 < w.bits := lt_of_lt_of_le (by decide) (eight_le_bits w)

/-- Settles O40: under `doc` OF is the result's sign bit xor CF, which is that same bit; under `sign_change` the
result's sign bit is the operand's low bit. -/
theorem rorOverflowUnderBothParameterValues : Obligations.RorOverflowUnderBothParameterValues := by
  unfold Obligations.RorOverflowUnderBothParameterValues
  intro p w value n f hc
  rw [rorOutputs_of_pos p value f hc.ge, testBit_masked_last, testBit_masked]
  simp only [hc, getFlag_rotateFlags, if_true]
  cases p.rorOf1 with
  | doc => exact Bool.xor_self _
  | signChange => rw [rorOverflow, msb_rotateRightBits_one (one_lt_bits w)]

/-- Settles O41: a rotate and its opposite by the same count undo each other, and the masked operand of the second is
the first's result. -/
theorem rotatesUndoEachOther : Obligations.RotatesUndoEachOther := by
  unfold Obligations.RotatesUndoEachOther
  intro p w value n f g
  simp only [rolOutputs_result, rorOutputs_result, operand_container, toNat_container_width,
    rotateRight_rotateLeft _ (bits_pos w), rotateLeft_rotateRight _ (bits_pos w), operand_toNat, and_self]

end Sys2Proof.Machine

/-! ### The ring of the carry rotates (spec/43_carry_rotates.md, R110 to R114) -/

namespace Sys2Proof.Machine

section Ring

variable {m : Nat}

/-- One bit placed at position `j` of an m-bit pattern. -/
theorem getLsbD_ofBool_shiftLeft {j : Nat} (hj : j < m) (b : Bool) (i : Nat) :
    ((BitVec.ofBool b).setWidth m <<< j).getLsbD i = (decide (i = j) && b) := by
  rw [BitVec.getLsbD_shiftLeft, BitVec.getLsbD_setWidth, BitVec.getLsbD_ofBool]
  by_cases hi : i = j
  · simp [hi, hj, show 0 < m by omega]
  · by_cases hlt : i < j
    · simp [hi, hlt]
    · have hsub : i - j ≠ 0 := by omega
      simp [hi, hsub]

/-- The number of that bit. -/
theorem toNat_ofBool_setWidth (hm : 0 < m) (b : Bool) : ((BitVec.ofBool b).setWidth m).toNat = b.toNat := by
  have hlt : b.toNat < 2 ^ m := lt_of_lt_of_le b.toNat_lt (Nat.le_self_pow hm.ne' 2)
  rw [BitVec.toNat_setWidth, BitVec.toNat_ofBool, Nat.mod_eq_of_lt hlt]

/-- The ring as one pattern of N+1 bits, the carry at the high end (R110). -/
def ringBits (ring : Ring m) : BitVec (m + 1) := BitVec.cons ring.1 ring.2

theorem ringBits_injective : Function.Injective (ringBits (m := m)) := by
  intro a b h
  have hcarry : (ringBits a).msb = (ringBits b).msb := congrArg BitVec.msb h
  have hvalue : (ringBits a).setWidth m = (ringBits b).setWidth m := congrArg (BitVec.setWidth m) h
  rw [ringBits, ringBits, BitVec.msb_cons, BitVec.msb_cons] at hcarry
  rw [ringBits, ringBits, BitVec.setWidth_cons, BitVec.setWidth_cons] at hvalue
  exact Prod.ext hcarry hvalue

theorem getLsbD_ringBits (ring : Ring m) (i : Nat) :
    (ringBits ring).getLsbD i = if i = m then ring.1 else ring.2.getLsbD i := BitVec.getLsbD_cons ..

/-- The closed form of R111 turns the ring's N+1 bits to the left. Place by place: the carry's
own, those the high bits wrap around to, the one the old carry comes to, and those the low bits move up to. -/
theorem ringBits_ringLeft (ring : Ring m) (c : Nat) : ringBits (ringLeft ring c) = (ringBits ring).rotateLeft c := by
  rw [ringLeft, ← BitVec.rotateLeft_mod_eq_rotateLeft]
  have hlt : c % (m + 1) < m + 1 := Nat.mod_lt _ (by omega)
  generalize c % (m + 1) = k at hlt
  by_cases hk : k = 0
  · rw [hk, rotateLeft_of_mod_eq_zero _ (Nat.zero_mod _)]
    rfl
  · apply BitVec.eq_of_getLsbD_eq
    intro i hi
    simp only [hk, if_false, getLsbD_ringBits, BitVec.getLsbD_rotateLeft, Nat.mod_eq_of_lt hlt, BitVec.getLsbD_or,
      BitVec.getLsbD_shiftLeft, BitVec.getLsbD_ushiftRight, getLsbD_ofBool_shiftLeft (show k - 1 < m by omega)]
    rcases show i = m ∨ i < k - 1 ∨ i = k - 1 ∧ i < m ∨ k ≤ i ∧ i < m by omega with h | h | ⟨h, hm⟩ | ⟨h, hm⟩
    · have h1 : ¬ m < k := by omega
      have h2 : m - k ≠ m := by omega
      simp [h, h1, h2]
    · have h1 : i ≠ m ∧ i < k ∧ i ≠ k - 1 ∧ m + 1 - k + i ≠ m := by omega
      simp [h1]
    · have h1 : i ≠ m ∧ i < k ∧ m + 1 - k + i = m := by omega
      simp [h1, ← h]
    · have h1 : i ≠ m ∧ ¬ i < k ∧ i ≠ k - 1 ∧ i - k ≠ m ∧ m ≤ m + 1 - k + i := by omega
      simp [h1, hi, hm, BitVec.getLsbD_of_ge]

/-- The closed form of R112 is that of R111 for the complementary number of places. -/
theorem ringRight_eq_ringLeft (ring : Ring m) (c : Nat) :
    ringRight ring c = ringLeft ring (m + 1 - c % (m + 1)) := by
  rw [ringRight, ringLeft]
  have hlt : c % (m + 1) < m + 1 := Nat.mod_lt _ (by omega)
  generalize c % (m + 1) = k at hlt
  by_cases hk : k = 0
  · simp [hk]
  · have hmod : (m + 1 - k) % (m + 1) = m + 1 - k := Nat.mod_eq_of_lt (by omega)
    have hne : m + 1 - k ≠ 0 := by omega
    have hcarry : m - (m + 1 - k) = k - 1 := by omega
    have hplace : m + 1 - k - 1 = m - k := by omega
    have hback : m + 1 - (m + 1 - k) = k := by omega
    simp only [hk, hmod, hne, hcarry, hplace, hback, if_false, Prod.mk.injEq, true_and]
    ac_rfl

/-- The closed form of R112 turns the ring's N+1 bits to the right. -/
theorem ringBits_ringRight (ring : Ring m) (c : Nat) :
    ringBits (ringRight ring c) = (ringBits ring).rotateRight c := by
  rw [ringRight_eq_ringLeft, ringBits_ringLeft, rotateRight_eq_rotateLeft]

/-- Turning the ring back by the same number of places restores it. -/
theorem ringRight_ringLeft (ring : Ring m) (c : Nat) : ringRight (ringLeft ring c) c = ring := by
  apply ringBits_injective
  rw [ringBits_ringRight, ringBits_ringLeft, rotateRight_rotateLeft _ m.succ_pos]

theorem ringLeft_ringRight (ring : Ring m) (c : Nat) : ringLeft (ringRight ring c) c = ring := by
  apply ringBits_injective
  rw [ringBits_ringLeft, ringBits_ringRight, rotateLeft_rotateRight _ m.succ_pos]

/-- One step of the ring to the left is one place of the closed form. -/
theorem ringStepLeft_eq (hm : 0 < m) (ring : Ring m) : ringStepLeft ring = ringLeft ring 1 := by
  have hmod : 1 % (m + 1) = 1 := Nat.mod_eq_of_lt (by omega)
  simp [ringStepLeft, ringLeft, hmod, BitVec.msb_eq_getLsbD_last, BitVec.ushiftRight_eq_zero]

/-- One step of the ring to the right is one place of the closed form. -/
theorem ringStepRight_eq (hm : 0 < m) (ring : Ring m) : ringStepRight ring = ringRight ring 1 := by
  have hmod : 1 % (m + 1) = 1 := Nat.mod_eq_of_lt (by omega)
  simp [ringStepRight, ringRight, hmod, BitVec.shiftLeft_eq_zero]

/-- `c` steps of the ring to the left are the closed form of R111. -/
theorem ringStepLeft_iterate (hm : 0 < m) (ring : Ring m) (c : Nat) : ringStepLeft^[c] ring = ringLeft ring c := by
  induction c with
  | zero => simp [ringLeft]
  | succ c ih =>
    rw [Function.iterate_succ_apply', ih, ringStepLeft_eq hm]
    apply ringBits_injective
    rw [ringBits_ringLeft, ringBits_ringLeft, ringBits_ringLeft, rotateLeft_rotateLeft]

/-- `c` steps of the ring to the right are the closed form of R112. -/
theorem ringStepRight_iterate (hm : 0 < m) (ring : Ring m) (c : Nat) : ringStepRight^[c] ring = ringRight ring c := by
  induction c with
  | zero => simp [ringRight]
  | succ c ih =>
    rw [Function.iterate_succ_apply', ih, ringStepRight_eq hm]
    apply ringBits_injective
    rw [ringBits_ringRight, ringBits_ringRight, ringBits_ringRight, rotateRight_rotateRight _ m.succ_pos]

theorem ringLeft_mod (ring : Ring m) (c : Nat) : ringLeft ring (c % (m + 1)) = ringLeft ring c := by
  simp only [ringLeft, Nat.mod_mod]

theorem ringRight_mod (ring : Ring m) (c : Nat) : ringRight ring (c % (m + 1)) = ringRight ring c := by
  simp only [ringRight, Nat.mod_mod]

end Ring

section CarryRotates

variable {p : Config} {w : Width} {x : Word} {n : Nat} {f : FlagsWord}

/-- RCL turns the ring of the incoming CF and the operand to the left, at every count, zero included. -/
theorem rclOutputs_ring :
    (getFlag (rclOutputs p w x n f).flagsOut .cf, operand w (rclOutputs p w x n f).result) =
      ringLeft (getFlag f .cf, operand w x) (effectiveCount w n) := by
  rcases Nat.eq_zero_or_pos (effectiveCount w n) with hc | hc
  · rw [rclOutputs, evaluateWith_zero hc, operand_container, hc, ringLeft, Nat.zero_mod, if_pos rfl]
  · rw [rclOutputs_of_pos p x f hc, operand_container, getFlag_rotateFlags]

/-- RCR turns that ring to the right. -/
theorem rcrOutputs_ring :
    (getFlag (rcrOutputs p w x n f).flagsOut .cf, operand w (rcrOutputs p w x n f).result) =
      ringRight (getFlag f .cf, operand w x) (effectiveCount w n) := by
  rcases Nat.eq_zero_or_pos (effectiveCount w n) with hc | hc
  · rw [rcrOutputs, evaluateWith_zero hc, operand_container, hc, ringRight, Nat.zero_mod, if_pos rfl]
  · rw [rcrOutputs_of_pos p x f hc, operand_container, getFlag_rotateFlags]

/-- RCR after RCL by the same raw count, the flags word flowing between, restores the ring. -/
theorem rcrOutputs_rclOutputs_ring :
    let left := rclOutputs p w x n f
    let back := rcrOutputs p w left.result n left.flagsOut
    (getFlag back.flagsOut .cf, operand w back.result) = (getFlag f .cf, operand w x) := by
  dsimp only
  rw [rcrOutputs_ring, rclOutputs_ring, ringRight_ringLeft]

/-- RCL after RCR by the same raw count, the flags word flowing between, restores the ring. -/
theorem rclOutputs_rcrOutputs_ring :
    let right := rcrOutputs p w x n f
    let again := rclOutputs p w right.result n right.flagsOut
    (getFlag again.flagsOut .cf, operand w again.result) = (getFlag f .cf, operand w x) := by
  dsimp only
  rw [rclOutputs_ring, rcrOutputs_ring, ringLeft_ringRight]

/-- A result is its own masked value. -/
theorem toNat_outputs_result (p : Config) (i : Instr) (f : FlagsWord) :
    (outputs p i f).result.toNat = (operand i.width (outputs p i f).result).toNat := by
  obtain ⟨r, hr⟩ := outputs_result_eq_container p i f
  rw [hr, operand_container, toNat_container_width]

theorem ringLeft_fst_operand (cf : Bool) (c : Nat) :
    (ringLeft (cf, operand w x) c).1 =
      let k := c % (w.bits + 1)
      if k = 0 then cf else (masked w x).testBit (w.bits - k) := by
  simp only [ringLeft, apply_ite Prod.fst, testBit_masked]

theorem ringRight_fst_operand (cf : Bool) (c : Nat) :
    (ringRight (cf, operand w x) c).1 =
      let k := c % (w.bits + 1)
      if k = 0 then cf else (masked w x).testBit (k - 1) := by
  simp only [ringRight, apply_ite Prod.fst, testBit_masked]

theorem toNat_ringLeft_snd_operand (cf : Bool) (c : Nat) :
    (ringLeft (cf, operand w x) c).2.toNat =
      let k := c % (w.bits + 1)
      if k = 0 then masked w x
      else ((masked w x <<< k) ||| (cf.toNat <<< (k - 1)) ||| (masked w x >>> (w.bits + 1 - k))) &&& valueMask w := by
  simp only [ringLeft, apply_ite Prod.snd, apply_ite BitVec.toNat, BitVec.toNat_or, BitVec.toNat_shiftLeft,
    BitVec.toNat_ushiftRight, operand_toNat, toNat_ofBool_setWidth (bits_pos w), and_valueMask, Nat.or_mod_two_pow,
    masked_shiftRight_mod]

theorem toNat_ringRight_snd_operand (cf : Bool) (c : Nat) :
    (ringRight (cf, operand w x) c).2.toNat =
      let k := c % (w.bits + 1)
      if k = 0 then masked w x
      else ((masked w x >>> k) ||| (cf.toNat <<< (w.bits - k)) ||| (masked w x <<< (w.bits + 1 - k))) &&&
        valueMask w := by
  simp only [ringRight, apply_ite Prod.snd, apply_ite BitVec.toNat, BitVec.toNat_or, BitVec.toNat_shiftLeft,
    BitVec.toNat_ushiftRight, operand_toNat, toNat_ofBool_setWidth (bits_pos w), and_valueMask, Nat.or_mod_two_pow,
    masked_shiftRight_mod]

end CarryRotates

/-- Settles O42: a ring step rotates the N+1 bits by one place, so `c` steps are the closed form, which reads `c` modulo
N+1 and is what RCL and RCR compute. -/
theorem carryRotatesTurnTheRing : Obligations.CarryRotatesTurnTheRing := by
  unfold Obligations.CarryRotatesTurnTheRing
  intro w value n s hc
  have hm := bits_pos w
  simp only [ringStepLeft_iterate hm, ringStepRight_iterate hm, ringLeft_mod, ringRight_mod, true_and]
  refine ⟨fun ring => ⟨?_, ?_⟩, _, _, exec_eq _ s, exec_eq _ s, ?_, ?_⟩
  · rw [ringStepLeft_eq hm]
    exact ringBits_ringLeft ring 1
  · rw [ringStepRight_eq hm]
    exact ringBits_ringRight ring 1
  · rw [deliver_flagsOf_active, deliver_resultOf_active]
    exact rclOutputs_ring
  · rw [deliver_flagsOf_active, deliver_resultOf_active]
    exact rcrOutputs_ring

/-- Settles O43: the closed form of the ring, said over numbers. -/
theorem rclResultAndFlags : Obligations.RclResultAndFlags := by
  unfold Obligations.RclResultAndFlags
  intro w value n s hc
  dsimp only
  obtain ⟨t, ht, hr, hcf, hof, hw⟩ := exec_of_rotate (.rcl w value n) s (rclOutputs_of_pos _ _ _ hc)
  refine ⟨t, ht, ?_, ?_, ?_, hw⟩
  · rw [hr, toNat_ringLeft_snd_operand]
  · rw [hcf, ringLeft_fst_operand]
  · rw [hof, hcf, hr, msb_eq_testBit_toNat]

/-- Settles O44: the closed form of the ring, said over numbers. -/
theorem rcrResultAndFlags : Obligations.RcrResultAndFlags := by
  unfold Obligations.RcrResultAndFlags
  intro w value n s hc
  dsimp only
  obtain ⟨t, ht, hr, hcf, hof, hw⟩ := exec_of_rotate (.rcr w value n) s (rcrOutputs_of_pos _ _ _ hc)
  refine ⟨t, ht, ?_, ?_, ?_, hw⟩
  · rw [hr, toNat_ringRight_snd_operand]
  · rw [hcf, ringRight_fst_operand]
  · rw [hof, hr, testBit_masked_last, ← msb_eq_testBit_toNat]

/-- Settles O45: each request turns the ring that the other left in the flags word and the result, by the same number
of places the other way. -/
theorem carryRotatesUndoEachOther : Obligations.CarryRotatesUndoEachOther := by
  unfold Obligations.CarryRotatesUndoEachOther
  intro p w value n f
  dsimp only
  obtain ⟨hcf, hvalue⟩ := Prod.mk.inj (rcrOutputs_rclOutputs_ring (p := p) (w := w) (x := value) (n := n) (f := f))
  obtain ⟨hcf', hvalue'⟩ := Prod.mk.inj (rclOutputs_rcrOutputs_ring (p := p) (w := w) (x := value) (n := n) (f := f))
  refine ⟨⟨?_, hcf⟩, ?_, hcf'⟩
  · rw [← operand_toNat, ← hvalue]
    exact toNat_outputs_result p (.rcr w _ n) _
  · rw [← operand_toNat, ← hvalue']
    exact toNat_outputs_result p (.rcl w _ n) _

end Sys2Proof.Machine

/-! ### Double shifts (spec/44_double_shift.md, R121 to R126) -/

namespace Sys2Proof.Machine

section Pairs

variable {m : Nat} (d s : BitVec m)

theorem toNat_pairLeft (c : Nat) :
    (pairLeft d s c).toNat = ((((d.toNat <<< m) ||| s.toNat) <<< c) % 2 ^ (2 * m)) >>> m := by
  have hlt : ((((d.toNat <<< m) ||| s.toNat) <<< c) % 2 ^ (2 * m)) >>> m < 2 ^ m := by
    rw [Nat.shiftRight_eq_div_pow, Nat.div_lt_iff_lt_mul (by positivity), ← Nat.pow_add, ← Nat.two_mul]
    exact Nat.mod_lt _ (by positivity)
  rw [pairLeft, BitVec.extractLsb'_toNat, BitVec.toNat_shiftLeft, BitVec.toNat_append, ← Nat.two_mul,
    Nat.mod_eq_of_lt hlt]

theorem toNat_pairRight (c : Nat) :
    (pairRight d s c).toNat = (((s.toNat <<< m) ||| d.toNat) >>> c) % 2 ^ m := by
  rw [pairRight, BitVec.extractLsb'_toNat, BitVec.toNat_ushiftRight, BitVec.toNat_append, Nat.shiftRight_zero]

/-- Up to the width the destination moves up and the source's high bits come in below it (R121). -/
theorem pairLeft_of_le {c : Nat} (hc : c ≤ m) : pairLeft d s c = d <<< c ||| s >>> (m - c) := by
  apply BitVec.eq_of_getLsbD_eq
  intro i hi
  simp only [pairLeft, BitVec.getLsbD_extractLsb', BitVec.getLsbD_shiftLeft, BitVec.getLsbD_append,
    BitVec.getLsbD_or, BitVec.getLsbD_ushiftRight]
  have h1 : ¬ m + i < c := by omega
  by_cases h : i < c
  · have h2 : m + i - c = m - c + i ∧ m - c + i < m := by omega
    simp [h, h1, hi, h2]
  · have h2 : ¬ m + i - c < m ∧ m + i - c - m = i - c ∧ m ≤ m - c + i := by omega
    simp [h, h1, hi, h2, BitVec.getLsbD_of_ge]

/-- From the width up only the source is left, moved up by what passes the width (R123). -/
theorem pairLeft_of_ge {c : Nat} (hc : m ≤ c) : pairLeft d s c = s <<< (c - m) := by
  apply BitVec.eq_of_getLsbD_eq
  intro i hi
  simp only [pairLeft, BitVec.getLsbD_extractLsb', BitVec.getLsbD_shiftLeft, BitVec.getLsbD_append]
  have h1 : m + i < m + m := by omega
  have h2 : m + i < c ↔ i < c - m := by omega
  have h3 : m + i - c < m := by omega
  have h4 : ¬ m + i < c → m + i - c = i - (c - m) := by omega
  by_cases h : m + i < c
  · simp [h, h2.mp h]
  · simp [h, ← h2, hi, h1, h3, ← h4 h]

/-- Up to the width the destination moves down and the source's low bits come in above it (R122). -/
theorem pairRight_of_le {c : Nat} (hc : c ≤ m) : pairRight d s c = d >>> c ||| s <<< (m - c) := by
  apply BitVec.eq_of_getLsbD_eq
  intro i hi
  simp only [pairRight, BitVec.getLsbD_extractLsb', BitVec.getLsbD_shiftLeft, BitVec.getLsbD_append,
    BitVec.getLsbD_or, BitVec.getLsbD_ushiftRight]
  by_cases h : c + i < m
  · have h2 : i < m - c := by omega
    simp [h, hi, h2]
  · have h2 : ¬ i < m - c ∧ c + i - m = i - (m - c) ∧ m ≤ c + i := by omega
    simp [h, hi, h2, BitVec.getLsbD_of_ge]

/-- From the width up only the source is left, moved down by what passes the width (R123). -/
theorem pairRight_of_ge {c : Nat} (hc : m ≤ c) : pairRight d s c = s >>> (c - m) := by
  apply BitVec.eq_of_getLsbD_eq
  intro i hi
  simp only [pairRight, BitVec.getLsbD_extractLsb', BitVec.getLsbD_append, BitVec.getLsbD_ushiftRight]
  have h1 : ¬ c + i < m := by omega
  have h2 : c + i - m = c - m + i := by omega
  simp [hi, h1, h2]

theorem pairLeft_zero : pairLeft d s 0 = d := by
  rw [pairLeft_of_le d s (Nat.zero_le m)]
  simp [BitVec.ushiftRight_eq_zero]

theorem pairRight_zero : pairRight d s 0 = d := by
  rw [pairRight_of_le d s (Nat.zero_le m)]
  simp [BitVec.shiftLeft_eq_zero]

/-- A pair whose halves are equal turns: below the width it is a rotate. -/
theorem pairLeft_self {c : Nat} (hc : c < m) : pairLeft d d c = d.rotateLeft c := by
  rw [pairLeft_of_le d d hc.le, BitVec.rotateLeft_def, Nat.mod_eq_of_lt hc]

theorem pairRight_self {c : Nat} (hc : c < m) : pairRight d d c = d.rotateRight c := by
  rw [pairRight_of_le d d hc.le, BitVec.rotateRight_def, Nat.mod_eq_of_lt hc]

/-- With a zero source the destination is shifted alone. -/
theorem pairLeft_zero_source {c : Nat} (hc : c ≤ m) : pairLeft d 0#m c = d <<< c := by
  rw [pairLeft_of_le d 0#m hc, BitVec.zero_ushiftRight, BitVec.or_zero]

theorem pairRight_zero_source {c : Nat} (hc : c ≤ m) : pairRight d 0#m c = d >>> c := by
  rw [pairRight_of_le d 0#m hc, BitVec.zero_shiftLeft, BitVec.or_zero]

end Pairs

section DoubleShifts

variable {p : Config} {w : Width} {x y : Word} {n : Nat} {f : FlagsWord}

theorem toNat_pairLeft_operand_of_le {c : Nat} (hc : c ≤ w.bits) :
    (pairLeft (operand w x) (operand w y) c).toNat =
      ((masked w x <<< c) ||| (masked w y >>> (w.bits - c))) &&& valueMask w := by
  simp only [pairLeft_of_le _ _ hc, BitVec.toNat_or, BitVec.toNat_shiftLeft, BitVec.toNat_ushiftRight,
    operand_toNat, and_valueMask, Nat.or_mod_two_pow, masked_shiftRight_mod]

theorem toNat_pairRight_operand_of_le {c : Nat} (hc : c ≤ w.bits) :
    (pairRight (operand w x) (operand w y) c).toNat =
      ((masked w x >>> c) ||| (masked w y <<< (w.bits - c))) &&& valueMask w := by
  simp only [pairRight_of_le _ _ hc, BitVec.toNat_or, BitVec.toNat_shiftLeft, BitVec.toNat_ushiftRight,
    operand_toNat, and_valueMask, Nat.or_mod_two_pow, masked_shiftRight_mod]

theorem shldPair_of_le {c : Nat} (hc : c ≤ w.bits) (d s : BitVec w.bits) :
    shldPair p w d s c = (pairLeft d s c, d.getLsbD (w.bits - c)) := if_pos hc

theorem shrdPair_of_le {c : Nat} (hc : c ≤ w.bits) (d s : BitVec w.bits) :
    shrdPair p w d s c = (pairRight d s c, d.getLsbD (c - 1)) := if_pos hc

/-- The result of SHLD at counts up to the width, zero included. -/
theorem shldOutputs_result (hc : effectiveCount w n ≤ w.bits) :
    (shldOutputs p w x y n f).result = container (pairLeft (operand w x) (operand w y) (effectiveCount w n)) := by
  have h0 : (shldPair p w (operand w x) (operand w y) 0).1 = operand w x := by
    rw [shldPair_of_le (Nat.zero_le _), pairLeft_zero]
  rw [shldOutputs, evaluateWith_result x f (rule := doubleLeftRule p w (operand w y) f) h0, doubleLeftRule,
    shldPair_of_le hc]

/-- The result of SHRD at counts up to the width, zero included. -/
theorem shrdOutputs_result (hc : effectiveCount w n ≤ w.bits) :
    (shrdOutputs p w x y n f).result = container (pairRight (operand w x) (operand w y) (effectiveCount w n)) := by
  have h0 : (shrdPair p w (operand w x) (operand w y) 0).1 = operand w x := by
    rw [shrdPair_of_le (Nat.zero_le _), pairRight_zero]
  rw [shrdOutputs, evaluateWith_result x f (rule := doubleRightRule p w (operand w y) f) h0, doubleRightRule,
    shrdPair_of_le hc]

end DoubleShifts

/-- Settles O46: the high half of the shifted pair, with its closed forms up to the width. -/
theorem shldResultAndFlags : Obligations.ShldResultAndFlags := by
  unfold Obligations.ShldResultAndFlags
  intro w destination source n s hc hcw
  dsimp only
  obtain ⟨t, ht, hr, hcf, hof, hszp, hw⟩ :=
    exec_of_shift (.shld w destination source n) s (shldOutputs_of_pos _ _ _ _ hc)
  rw [shldPair_of_le hcw] at hr hcf hof
  refine ⟨decodeLine_evaldSel w false _ _ _, t, ht, ?_, fun _ => ?_, fun h => ?_, ?_, ?_, hszp, hw⟩
  · rw [hr, toNat_pairLeft, operand_toNat, operand_toNat]
  · rw [hr, toNat_pairLeft_operand_of_le hcw]
  · rw [hr, pairLeft_of_ge _ _ h.ge, h, Nat.sub_self, BitVec.shiftLeft_zero, operand_toNat]
  · rw [hcf, testBit_masked]
  · rw [hof, hr, testBit_masked_last, ← msb_eq_testBit_toNat]

/-- Settles O47: the low half of the shifted pair, with its closed forms up to the width. -/
theorem shrdResultAndFlags : Obligations.ShrdResultAndFlags := by
  unfold Obligations.ShrdResultAndFlags
  intro w destination source n s hc hcw
  dsimp only
  obtain ⟨t, ht, hr, hcf, hof, hszp, hw⟩ :=
    exec_of_shift (.shrd w destination source n) s (shrdOutputs_of_pos _ _ _ _ hc)
  rw [shrdPair_of_le hcw] at hr hcf hof
  refine ⟨decodeLine_evaldSel w true _ _ _, t, ht, ?_, fun _ => ?_, fun h => ?_, ?_, ?_, hszp, hw⟩
  · rw [hr, toNat_pairRight, operand_toNat, operand_toNat]
  · rw [hr, toNat_pairRight_operand_of_le hcw]
  · rw [hr, pairRight_of_ge _ _ h.ge, h, Nat.sub_self, BitVec.ushiftRight_zero, operand_toNat]
  · rw [hcf, testBit_masked]
  · rw [hof, hr, testBit_masked_last, ← msb_eq_testBit_toNat]

/-- Settles O48: above the width result and CF are the open parameter's, the result masked, and the flags are built as
at any other count but 1. -/
theorem doubleShiftsAboveTheWidthComplete : Obligations.DoubleShiftsAboveTheWidthComplete := by
  unfold Obligations.DoubleShiftsAboveTheWidthComplete
  intro w destination source n s right hcw
  dsimp only
  have hpos := bits_pos w
  have hc : 1 ≤ effectiveCount w n := by omega
  have hne : effectiveCount w n ≠ 1 := by omega
  have hover : ¬ effectiveCount w n ≤ w.bits := by omega
  cases right with
  | false =>
    obtain ⟨t, ht, hr, hcf, hof, hszp, hw⟩ :=
      exec_of_shift (.shld w destination source n) s (shldOutputs_of_pos _ _ _ _ hc)
    rw [shldPair, if_neg hover] at hr hcf
    exact ⟨t, ht, hr.trans (operand_toNat ..), hcf, hof.trans (if_neg hne), hszp, hw⟩
  | true =>
    obtain ⟨t, ht, hr, hcf, hof, hszp, hw⟩ :=
      exec_of_shift (.shrd w destination source n) s (shrdOutputs_of_pos _ _ _ _ hc)
    rw [shrdPair, if_neg hover] at hr hcf
    exact ⟨t, ht, hr.trans (operand_toNat ..), hcf, hof.trans (if_neg hne), hszp, hw⟩

/-- Settles O52: a pair of equal halves turns as one half does. -/
theorem equalOperandsRotate : Obligations.EqualOperandsRotate := by
  unfold Obligations.EqualOperandsRotate
  intro p w x n f hc
  rw [shldOutputs_result hc.le, shrdOutputs_result hc.le, rolOutputs_result, rorOutputs_result, pairLeft_self _ hc,
    pairRight_self _ hc]
  exact ⟨rfl, rfl⟩

end Sys2Proof.Machine

/-! ### Double shifts one bit at a time, and with a zero source (spec/44_double_shift.md, R121 to R123) -/

namespace Sys2Proof.Machine

section Steps

variable {m : Nat} (d s : BitVec m)

theorem getLsbD_ofBool_setWidth (hm : 0 < m) (b : Bool) (i : Nat) :
    ((BitVec.ofBool b).setWidth m).getLsbD i = (decide (i = 0) && b) := by
  rw [← getLsbD_ofBool_shiftLeft hm, BitVec.shiftLeft_zero]

/-- One bit of a double shift to the left is one place of the pair `{d, s}`. -/
theorem append_pairStepLeft (hm : 0 < m) (q : BitVec m × BitVec m) :
    (pairStepLeft q).1 ++ (pairStepLeft q).2 = (q.1 ++ q.2) <<< 1 := by
  apply BitVec.eq_of_getLsbD_eq
  intro i hi
  simp only [pairStepLeft, BitVec.getLsbD_append, BitVec.getLsbD_or, BitVec.getLsbD_shiftLeft,
    getLsbD_ofBool_setWidth hm, BitVec.msb_eq_getLsbD_last]
  rcases show i < m ∨ i = m ∨ m < i by omega with h | h | h
  · have h1 : i - 1 < m := by omega
    simp [h, hi, h1]
  · have h1 : m - 1 < m ∧ m ≠ 0 := by omega
    simp [h, hm, h1]
  · have h1 : ¬ i < m ∧ i - m < m ∧ i - m ≠ 0 ∧ ¬ i < 1 ∧ ¬ i - m < 1 ∧ ¬ i - 1 < m ∧ i - 1 - m = i - m - 1 := by
      omega
    simp [h1, hi]

/-- One bit of a double shift to the right is one place of the pair `{s, d}`. -/
theorem append_pairStepRight (hm : 0 < m) (q : BitVec m × BitVec m) :
    (pairStepRight q).2 ++ (pairStepRight q).1 = (q.2 ++ q.1) >>> 1 := by
  apply BitVec.eq_of_getLsbD_eq
  intro i hi
  simp only [pairStepRight, BitVec.getLsbD_append, BitVec.getLsbD_or, BitVec.getLsbD_ushiftRight,
    getLsbD_ofBool_shiftLeft (show m - 1 < m by omega)]
  rcases show i < m - 1 ∨ i = m - 1 ∨ m ≤ i by omega with h | h | h
  · have h1 : i < m ∧ 1 + i < m ∧ i ≠ m - 1 := by omega
    simp [h1]
  · have h1 : m - 1 < m ∧ 1 + (m - 1) = m := by omega
    simp [h, h1]
  · have h1 : ¬ i < m ∧ ¬ 1 + i < m ∧ 1 + i - m = 1 + (i - m) := by omega
    simp [h1]

theorem append_pairStepLeft_iterate (hm : 0 < m) (c : Nat) :
    (pairStepLeft^[c] (d, s)).1 ++ (pairStepLeft^[c] (d, s)).2 = (d ++ s) <<< c := by
  induction c with
  | zero => simp
  | succ c ih => rw [Function.iterate_succ_apply', append_pairStepLeft hm, ih, BitVec.shiftLeft_add]

theorem append_pairStepRight_iterate (hm : 0 < m) (c : Nat) :
    (pairStepRight^[c] (d, s)).2 ++ (pairStepRight^[c] (d, s)).1 = (s ++ d) >>> c := by
  induction c with
  | zero => simp
  | succ c ih => rw [Function.iterate_succ_apply', append_pairStepRight hm, ih, BitVec.shiftRight_add]

/-- The high half of a pair. -/
theorem pairLeft_zero_eq_high : (d ++ s).extractLsb' m m = d := by
  rw [← BitVec.shiftLeft_zero (d ++ s)]
  exact pairLeft_zero d s

/-- The low half of a pair. -/
theorem pairRight_zero_eq_low : (s ++ d).extractLsb' 0 m = d := by
  rw [← BitVec.ushiftRight_zero (s ++ d)]
  exact pairRight_zero d s

/-- `c` one-bit steps leave in the destination the high half of the shifted pair. -/
theorem pairStepLeft_iterate_fst (hm : 0 < m) (c : Nat) : (pairStepLeft^[c] (d, s)).1 = pairLeft d s c := by
  rw [pairLeft, ← append_pairStepLeft_iterate d s hm, pairLeft_zero_eq_high]

/-- `c` one-bit steps leave in the destination the low half of the shifted pair. -/
theorem pairStepRight_iterate_fst (hm : 0 < m) (c : Nat) : (pairStepRight^[c] (d, s)).1 = pairRight d s c := by
  rw [pairRight, ← append_pairStepRight_iterate d s hm, pairRight_zero_eq_low]

/-- The sign bit of the destination is the high bit of the shifted pair. -/
theorem msb_pairLeft (hm : 0 < m) (c : Nat) : (pairLeft d s c).msb = ((d ++ s) <<< c).msb := by
  rw [← pairStepLeft_iterate_fst d s hm, ← append_pairStepLeft_iterate d s hm, BitVec.msb_append, if_neg hm.ne']

/-- The low bit of the destination is the low bit of the shifted pair. -/
theorem getLsbD_zero_pairRight (hm : 0 < m) (c : Nat) :
    (pairRight d s c).getLsbD 0 = ((s ++ d) >>> c).getLsbD 0 := by
  rw [← pairStepRight_iterate_fst d s hm, ← append_pairStepRight_iterate d s hm, BitVec.getLsbD_append, if_pos hm]

end Steps

section ZeroFill

variable {p : Config} {w : Width}

/-- Under `zero_fill` SHLD is the left shift of the pair at every count, its CF the bit that leaves the pair. -/
theorem shldPair_of_zeroFill (hp : p.dshiftOvercount = zeroFill) (d s : BitVec w.bits) (c : Nat) :
    shldPair p w d s c = (pairLeft d s c, leftCarry (d ++ s) c) := by
  by_cases hcw : c ≤ w.bits
  · have h1 : c ≤ w.bits + w.bits ∧ ¬ w.bits + w.bits - c < w.bits ∧ w.bits + w.bits - c - w.bits = w.bits - c := by
      omega
    simp [shldPair_of_le hcw, leftCarry, BitVec.getLsbD_append, h1]
  · simp [shldPair, hcw, hp, zeroFill, leftCarry, Nat.two_mul]

/-- Under `zero_fill` SHRD is the right shift of the pair at every count, its CF the bit that leaves the pair. -/
theorem shrdPair_of_zeroFill (hp : p.dshiftOvercount = zeroFill) (d s : BitVec w.bits) (c : Nat) (hc : 1 ≤ c) :
    shrdPair p w d s c = (pairRight d s c, rightCarry (s ++ d) c) := by
  by_cases hcw : c ≤ w.bits
  · have h1 : c ≤ w.bits + w.bits ∧ c - 1 < w.bits := by omega
    simp [shrdPair_of_le hcw, rightCarry, BitVec.getLsbD_append, h1]
  · simp [shrdPair, hcw, hp, zeroFill, rightCarry, Nat.two_mul]

end ZeroFill

/-- Settles O50: under `zero_fill` the result is the destination half of the shifted pair, and CF the bit that leaves
the pair, which leaves its destination half. -/
theorem doubleShiftsAreOneBitSteps : Obligations.DoubleShiftsAreOneBitSteps := by
  unfold Obligations.DoubleShiftsAreOneBitSteps
  intro p w destination source n f hp hc
  have hm := bits_pos w
  simp only [shldOutputs_of_pos p destination source f hc, shrdOutputs_of_pos p destination source f hc,
    shldPair_of_zeroFill hp, shrdPair_of_zeroFill hp _ _ _ hc, operand_container, getFlag_shiftFlags,
    pairStepLeft_iterate_fst _ _ hm, pairStepRight_iterate_fst _ _ hm, msb_pairLeft _ _ hm,
    getLsbD_zero_pairRight _ _ hm, true_and]
  exact ⟨leftCarry_eq_msb_shiftLeft _ hc, rightCarry_eq_shiftRight _ hc⟩

/-- Settles O49: above the width the destination half of the shifted pair is the source shifted by what passes the
width, and so is the bit that leaves the pair. -/
theorem zeroFillAboveTheWidth : Obligations.ZeroFillAboveTheWidth := by
  unfold Obligations.ZeroFillAboveTheWidth
  intro p w destination source n f hp hcw
  have hm := bits_pos w
  have hc : 1 ≤ effectiveCount w n := by omega
  simp only [shldOutputs_of_pos p destination source f hc, shrdOutputs_of_pos p destination source f hc,
    shldPair_of_zeroFill hp, shrdPair_of_zeroFill hp _ _ _ hc, toNat_container_width, getFlag_shiftFlags,
    pairLeft_of_ge _ _ hcw.le, pairRight_of_ge _ _ hcw.le, Nat.two_mul, leftCarry, rightCarry, testBit_masked,
    BitVec.getLsbD_append]
  generalize effectiveCount w n = c at *
  refine ⟨?_, ?_, ?_, ?_⟩
  · split
    · exact toNat_operand_shiftLeft _
    · rw [BitVec.shiftLeft_eq_zero (by omega), BitVec.toNat_zero]
  · rw [if_pos (show w.bits + w.bits - c < w.bits by omega)]
  · split
    · exact toNat_operand_shiftRight _
    · rw [BitVec.ushiftRight_eq_zero (by omega), BitVec.toNat_zero]
  · rw [if_neg (show ¬ c - 1 < w.bits by omega)]

/-- Two flags words a shift writes from the same result and CF differ in OF at most. -/
theorem getFlag_shiftFlags_congr {m : Nat} (f : FlagsWord) (cf : Bool) {of of' : Bool} (r : BitVec m) {y : Flag}
    (h : y = .of → of = of') : getFlag (shiftFlags f cf of r) y = getFlag (shiftFlags f cf of' r) y := by
  rw [getFlag_shiftFlags, getFlag_shiftFlags]
  cases y with
  | of => exact h rfl
  | cf | zf | sf | pf | af => rfl

section CountOne

variable {m : Nat} (v : BitVec m)

/-- At count 1 the bit leaving to the left is the high bit. -/
theorem leftCarry_one : leftCarry v 1 = v.msb := by
  rw [leftCarry_eq_msb_shiftLeft v le_rfl, Nat.sub_self, BitVec.shiftLeft_zero]

/-- At count 1 the bit leaving to the right is the low bit. -/
theorem rightCarry_one : rightCarry v 1 = v.getLsbD 0 := by
  rw [rightCarry_eq_shiftRight v le_rfl, Nat.sub_self, BitVec.ushiftRight_zero]

/-- A logical right shift clears the high bit. -/
theorem msb_ushiftRight_one : (v >>> 1).msb = false := by
  rw [BitVec.msb_eq_getLsbD_last, BitVec.getLsbD_ushiftRight, BitVec.getLsbD_of_ge _ _ (by omega)]

end CountOne

section ZeroSource

variable {p : Config} {w : Width} {x : Word} {n : Nat} {f : FlagsWord}

theorem operand_zero (w : Width) : operand w 0 = 0#w.bits := BitVec.setWidth_zero ..

/-- With a zero source and a count up to the width SHLD has SHL's flags, OF aside above count 1. -/
theorem getFlag_shldOutputs_zero_source (hcw : effectiveCount w n ≤ w.bits) {y : Flag}
    (hy : y = .of → effectiveCount w n ≤ 1) :
    getFlag (shldOutputs p w x 0 n f).flagsOut y = getFlag (shlOutputs p w x n f).flagsOut y := by
  rcases Nat.eq_zero_or_pos (effectiveCount w n) with hc | hc
  · rw [shldOutputs, shlOutputs, evaluateWith_zero hc, evaluateWith_zero hc]
  · have hcarry : leftCarry (operand w x) (effectiveCount w n) = (operand w x).getLsbD (w.bits - effectiveCount w n) :=
      if_pos hcw
    simp only [shldOutputs_of_pos p x 0 f hc, shlOutputs_of_pos p x f hc, operand_zero, shldPair_of_le hcw,
      pairLeft_zero_source _ hcw, ← hcarry]
    refine getFlag_shiftFlags_congr f _ _ fun h => ?_
    have h1 : effectiveCount w n = 1 := le_antisymm (hy h) hc
    rw [if_pos h1, if_pos h1, h1, leftCarry_one, Bool.xor_comm]

/-- With a zero source and a count up to the width SHRD has SHR's flags, OF aside above count 1. -/
theorem getFlag_shrdOutputs_zero_source (hcw : effectiveCount w n ≤ w.bits) {y : Flag}
    (hy : y = .of → effectiveCount w n ≤ 1) :
    getFlag (shrdOutputs p w x 0 n f).flagsOut y = getFlag (shrOutputs p w x n f).flagsOut y := by
  rcases Nat.eq_zero_or_pos (effectiveCount w n) with hc | hc
  · rw [shrdOutputs, shrOutputs, evaluateWith_zero hc, evaluateWith_zero hc]
  · have hcarry : rightCarry (operand w x) (effectiveCount w n) = (operand w x).getLsbD (effectiveCount w n - 1) :=
      if_pos hcw
    simp only [shrdOutputs_of_pos p x 0 f hc, shrOutputs_of_pos p x f hc, operand_zero, shrdPair_of_le hcw,
      pairRight_zero_source _ hcw, ← hcarry]
    refine getFlag_shiftFlags_congr f _ _ fun h => ?_
    have h1 : effectiveCount w n = 1 := le_antisymm (hy h) hc
    rw [if_pos h1, if_pos h1, h1, msb_ushiftRight_one, Bool.xor_false]

end ZeroSource

/-- Settles O53: nothing comes in from a zero source, so the pair's destination half is the destination shifted
alone. -/
theorem zeroSourceIsASingleShift : Obligations.ZeroSourceIsASingleShift := by
  unfold Obligations.ZeroSourceIsASingleShift
  intro p w x n f hcw
  refine ⟨?_, ?_, fun y hy => ⟨getFlag_shldOutputs_zero_source hcw hy, getFlag_shrdOutputs_zero_source hcw hy⟩⟩
  · rw [shldOutputs_result hcw, shlOutputs_result, operand_zero, pairLeft_zero_source _ hcw]
  · rw [shrdOutputs_result hcw, shrOutputs_result, operand_zero, pairRight_zero_source _ hcw]

end Sys2Proof.Machine

/-! ### Count 1, and counts at or above the width (files 40 to 44 of spec/) -/

namespace Sys2Proof.Machine

section CountOne

variable {m : Nat} (hm : 0 < m)

include hm

theorem arithmeticCarry_one (v : BitVec m) : arithmeticCarry v 1 = v.getLsbD 0 := by
  rw [arithmeticCarry_eq_sshiftRight v hm, Nat.sub_self, BitVec.sshiftRight_zero]

/-- One place to the left the ring's carry takes the value's high bit. -/
theorem ringLeft_one_fst (ring : Ring m) : (ringLeft ring 1).1 = ring.2.msb := by
  rw [← ringStepLeft_eq hm, ringStepLeft]

/-- One place to the right the ring's carry takes the value's low bit. -/
theorem ringRight_one_fst (ring : Ring m) : (ringRight ring 1).1 = ring.2.getLsbD 0 := by
  rw [← ringStepRight_eq hm, ringStepRight]

end CountOne

theorem shldPair_one_snd (p : Config) {w : Width} (d s : BitVec w.bits) : (shldPair p w d s 1).2 = d.msb := by
  rw [shldPair_of_le (bits_pos w), BitVec.msb_eq_getLsbD_last]

theorem shrdPair_one_snd (p : Config) {w : Width} (d s : BitVec w.bits) : (shrdPair p w d s 1).2 = d.getLsbD 0 := by
  rw [shrdPair_of_le (bits_pos w)]

/-- The bit of an operand that leaves it at one place in a direction. -/
def outgoingBit {m : Nat} (dir : Direction) (v : BitVec m) : Bool :=
  match dir with
  | .left => v.msb
  | .right => v.getLsbD 0

/-- At count 1 every operation's CF is the bit that leaves its operand. -/
theorem getFlag_cf_outputs_of_count_one (p : Config) {i : Instr} (f : FlagsWord) (hc : count i = 1) :
    getFlag (outputs p i f).flagsOut .cf = outgoingBit i.direction (operand i.width i.target) := by
  have hm := bits_pos i.width
  have hm1 := one_lt_bits i.width
  cases i with
  | rol w x n =>
    have hc : effectiveCount w n = 1 := hc
    simp only [outputs, rolOutputs_of_pos p x f hc.ge, getFlag_rotateFlags, hc]
    exact getLsbD_zero_rotateLeftBits_one hm1 _
  | ror w x n =>
    have hc : effectiveCount w n = 1 := hc
    simp only [outputs, rorOutputs_of_pos p x f hc.ge, getFlag_rotateFlags, hc]
    exact msb_rotateRightBits_one hm1 _
  | rcl w x n =>
    have hc : effectiveCount w n = 1 := hc
    simp only [outputs, rclOutputs_of_pos p x f hc.ge, getFlag_rotateFlags, hc]
    exact ringLeft_one_fst hm _
  | rcr w x n =>
    have hc : effectiveCount w n = 1 := hc
    simp only [outputs, rcrOutputs_of_pos p x f hc.ge, getFlag_rotateFlags, hc]
    exact ringRight_one_fst hm _
  | shl w x n | sal w x n =>
    have hc : effectiveCount w n = 1 := hc
    simp only [outputs, salOutputs_eq, shlOutputs_of_pos p x f hc.ge, getFlag_shiftFlags, hc]
    exact leftCarry_one _
  | shr w x n =>
    have hc : effectiveCount w n = 1 := hc
    simp only [outputs, shrOutputs_of_pos p x f hc.ge, getFlag_shiftFlags, hc]
    exact rightCarry_one _
  | sar w x n =>
    have hc : effectiveCount w n = 1 := hc
    simp only [outputs, sarOutputs_of_pos p x f hc.ge, getFlag_shiftFlags, hc]
    exact arithmeticCarry_one hm _
  | shld w d s n =>
    have hc : effectiveCount w n = 1 := hc
    simp only [outputs, shldOutputs_of_pos p d s f hc.ge, getFlag_shiftFlags, hc]
    exact shldPair_one_snd p _ _
  | shrd w d s n =>
    have hc : effectiveCount w n = 1 := hc
    simp only [outputs, shrdOutputs_of_pos p d s f hc.ge, getFlag_shiftFlags, hc]
    exact shrdPair_one_snd p _ _

/-- At count 1 OF of every operation but ROR is the sign change from operand to result: a left-going one writes the
result's sign bit xor CF, and CF is then the operand's sign bit. -/
theorem getFlag_of_outputs_of_count_one (p : Config) {i : Instr} (f : FlagsWord) (hc : count i = 1)
    (hror : ∀ (w : Width) (x : Word) (n : Nat), i ≠ .ror w x n) :
    getFlag (outputs p i f).flagsOut .of =
      ((operand i.width i.target).msb ^^ (operand i.width (outputs p i f).result).msb) := by
  cases i with
  | rol w x n =>
    have hc : effectiveCount w n = 1 := hc
    simp only [outputs, rolOutputs_of_pos p x f hc.ge, getFlag_rotateFlags, hc, if_true, Instr.width, Instr.target,
      operand_container, getLsbD_zero_rotateLeftBits_one (one_lt_bits w)]
    exact Bool.xor_comm _ _
  | ror w x n => exact absurd rfl (hror w x n)
  | rcl w x n =>
    have hc : effectiveCount w n = 1 := hc
    simp only [outputs, rclOutputs_of_pos p x f hc.ge, getFlag_rotateFlags, hc, if_true, Instr.width, Instr.target,
      operand_container, ringLeft_one_fst (bits_pos w)]
    exact Bool.xor_comm _ _
  | rcr w x n =>
    have hc : effectiveCount w n = 1 := hc
    simp only [outputs, rcrOutputs_of_pos p x f hc.ge, getFlag_rotateFlags, hc, if_true, Instr.width, Instr.target,
      operand_container]
  | shl w x n | sal w x n =>
    have hc : effectiveCount w n = 1 := hc
    simp only [outputs, salOutputs_eq, shlOutputs_of_pos p x f hc.ge, getFlag_shiftFlags, hc, if_true, Instr.width,
      Instr.target, operand_container, leftCarry_one]
    exact Bool.xor_comm _ _
  | shr w x n =>
    have hc : effectiveCount w n = 1 := hc
    simp only [outputs, shrOutputs_of_pos p x f hc.ge, getFlag_shiftFlags, hc, if_true, Instr.width, Instr.target,
      operand_container, msb_ushiftRight_one, Bool.xor_false]
  | sar w x n =>
    have hc : effectiveCount w n = 1 := hc
    simp only [outputs, sarOutputs_of_pos p x f hc.ge, getFlag_shiftFlags, hc, if_true, Instr.width, Instr.target,
      operand_container, BitVec.msb_sshiftRight, Bool.xor_self]
  | shld w d s n =>
    have hc : effectiveCount w n = 1 := hc
    simp only [outputs, shldOutputs_of_pos p d s f hc.ge, getFlag_shiftFlags, hc, if_true, Instr.width, Instr.target,
      operand_container]
  | shrd w d s n =>
    have hc : effectiveCount w n = 1 := hc
    simp only [outputs, shrdOutputs_of_pos p d s f hc.ge, getFlag_shiftFlags, hc, if_true, Instr.width, Instr.target,
      operand_container]

/-- Settles O28: CF is the outgoing bit, which is bit N-1 of the masked operand to the left and bit 0 to the right. -/
theorem carryAtCountOneByDirection : Obligations.CarryAtCountOneByDirection := by
  unfold Obligations.CarryAtCountOneByDirection
  intro i s hc
  refine ⟨_, exec_eq i s, ?_⟩
  rw [deliver_flagsOf_active, getFlag_cf_outputs_of_count_one _ _ hc, testBit_masked_last, testBit_masked]
  cases i.direction <;> rfl

/-- Settles O29: OF is the sign change, read from the operand's bit N-1 and the result's. -/
theorem overflowAtCountOneIsSignChange : Obligations.OverflowAtCountOneIsSignChange := by
  unfold Obligations.OverflowAtCountOneIsSignChange
  intro i s hc hror
  refine ⟨_, exec_eq i s, ?_⟩
  rw [deliver_flagsOf_active, deliver_resultOf_active, getFlag_of_outputs_of_count_one _ _ hc hror,
    testBit_masked_last, toNat_outputs_result, ← msb_eq_testBit_toNat]

/-- An arithmetic shift by N-1 or more leaves the sign bit in every place. -/
theorem sshiftRight_of_last_le {m : Nat} (v : BitVec m) {c : Nat} (hc : m - 1 ≤ c) :
    v.sshiftRight c = if v.msb then BitVec.allOnes m else 0#m := by
  apply BitVec.eq_of_getLsbD_eq
  intro i hi
  have hbit : (v.sshiftRight c).getLsbD i = v.msb := by
    rw [BitVec.getLsbD_sshiftRight]
    split
    · have hlast : c + i = m - 1 := by omega
      simp [hi, hlast, BitVec.msb_eq_getLsbD_last]
    · simp [hi]
  rw [hbit]
  cases v.msb <;> simp [hi]

/-- Settles O30: a logical shift of N places or more shifts every bit out, an arithmetic one of N-1 or more leaves only
the sign, and a rotate by a multiple of N moves nothing. -/
theorem countsAtOrAboveTheWidth : Obligations.CountsAtOrAboveTheWidth := by
  unfold Obligations.CountsAtOrAboveTheWidth
  intro w x n s
  refine ⟨fun hc => ⟨_, _, _, exec_eq _ s, exec_eq _ s, exec_eq _ s, ?_⟩, fun hc => ⟨_, exec_eq _ s, ?_⟩,
    fun hc => ⟨_, _, exec_eq _ s, exec_eq _ s, ?_⟩⟩
  · simp only [deliver_resultOf_active, outputs, salOutputs_eq, shlOutputs_result, shrOutputs_result,
      BitVec.shiftLeft_eq_zero hc, BitVec.ushiftRight_eq_zero hc]
    exact ⟨BitVec.setWidth_zero .., BitVec.setWidth_zero .., BitVec.setWidth_zero ..⟩
  · rw [deliver_resultOf_active, outputs, sarOutputs_result, toNat_container_width, sshiftRight_of_last_le _ hc,
      testBit_masked_last, valueMask_eq, apply_ite BitVec.toNat, BitVec.toNat_allOnes, BitVec.toNat_zero]
  · simp only [deliver_resultOf_active, outputs, rolOutputs_result, rorOutputs_result,
      rotateLeft_of_mod_eq_zero _ hc, rotateRight_of_mod_eq_zero _ hc, toNat_container_width, operand_toNat, and_self]

end Sys2Proof.Machine
